-- ==== Sys2Proof/Word.lean ====
section
/-! DEFINITION. The widths of the Jufo ISA (spec/00_scope.md R3) as names for bit vectors. All values are unsigned
(00_scope.md section 6.1); a value's unsigned reading is its toNat. -/

namespace Sys2Proof

/-- A byte: the width of the accumulator and of every data access (R3 ACC_BITS, 20_memory.md R23). -/
abbrev Byte := BitVec 8

/-- An instruction word, and an element of a ProgramImage (R3 WORD_BITS). -/
abbrev Word := BitVec 16

/-- The opcode field (R3 OPCODE_BITS). -/
abbrev Opcode := BitVec 4

/-- The operand field (R3 OPERAND_BITS): decoded once, "as a plain 12-bit value" (30_encoding.md R33). -/
abbrev Operand := BitVec 12

/-- An instruction index, 0 to 2047: the value of the program counter (10_state.md R10). -/
abbrev SlotIndex := BitVec 11

/-- A program image: words of any number (10_state.md R16). -/
abbrev ProgramImage := List Word

/-- Source text of the Assembler: a sequence of characters, Unicode scalar values (91_not_in_source.md N16). -/
abbrev Text := List Char

end Sys2Proof
end

