-- ==== Sys2Proof/Config.lean ====
section
/-! DEFINITION. The fixed constants of the Jufo ISA (spec/00_scope.md R3) and the three parameters the spec leaves
open for a model to take as arguments (00_scope.md section 4, 92_eei_decisions.md D3, D4, D7), each with the default
the spec's rules use. No value of this hardware is left undefined, so there is no free value here. -/

namespace Sys2Proof

/-- MEM_BYTES: the size of working_memory and of baseline_image (R3). -/
def Config.memBytes : Nat := 4096

/-- N_INSTR: instruction slots in memory; MEM_BYTES = 2 * N_INSTR (R3). -/
def Config.nInstr : Nat := 2048

/-- PC_MAX: the largest program-counter value (R3). -/
def Config.pcMax : Nat := 2047

/-- The largest argument the assembler parses: ARG_PARSE_BITS is 16 (R3, 46_assembler.md R73). -/
def Config.argMax : Nat := 65535

/-- The largest operand: OPERAND_BITS is 12 (R3). -/
def Config.operandMax : Nat := 4095

/-- IMM8_RULE (D3): how add and sub take their value from the 12-bit operand. -/
inductive ImmRule where
  | low8    -- the value is operand[7:0]
  | wide12  -- the value is the whole operand; carry when the true result leaves 0..255
deriving DecidableEq, Repr

/-- INSTALL_FILL (D4): what an install leaves in the baseline bytes past the image. -/
inductive InstallFill where
  | zero  -- a fresh layout, 0x00
  | keep  -- what the baseline held before
deriving DecidableEq, Repr

/-- The spec's default of IMM8_RULE. DESIGN CHOICE of the spec (D3, log entry 5); unsafe where the original is wide12. -/
def Config.immRule : ImmRule := .low8

/-- The spec's default of INSTALL_FILL. DESIGN CHOICE of the spec (D4, log entry 6); unsafe where the original keeps. -/
def Config.installFill : InstallFill := .zero

/-- The spec's default of ASM_REJECT_WIDE_ARG. DESIGN CHOICE of the spec (D7, log entry 7); safe: the reference behaviour. -/
def Config.rejectWideArg : Bool := false

end Sys2Proof
end

