-- ==== Sys2Proof/Syntax.lean ====
section
/-! DEFINITION. The sixteen instructions of the Jufo ISA (spec/30_encoding.md R34), one constructor per row of
opcode_table.json. Each carries the decoded operand "once, as a plain 12-bit value" (R33); the handler decides what
it means. An ignored operand is carried too: R32 keeps its bits. -/

namespace Sys2Proof

/-- The closed set of instructions (30_encoding.md R34, 40_step_cycle.md R43). -/
inductive Instr where
  | noop   (x : Operand)  -- 0x0, operand ignored (R50)
  | set    (x : Operand)  -- 0x1, imm8 (R53)
  | load   (x : Operand)  -- 0x2, addr12 (R54)
  | save   (x : Operand)  -- 0x3, addr12 (R55)
  | add    (x : Operand)  -- 0x4, imm8 (R57)
  | sub    (x : Operand)  -- 0x5, imm8 (R58)
  | addMem (x : Operand)  -- 0x6, addr12 (R59)
  | subMem (x : Operand)  -- 0x7, addr12 (R60)
  | inc    (x : Operand)  -- 0x8, addr12 (R61)
  | dec    (x : Operand)  -- 0x9, addr12 (R62)
  | jmpInz (x : Operand)  -- 0xA, index12 (R63)
  | jmpIz  (x : Operand)  -- 0xB, index12 (R64)
  | jmpIc  (x : Operand)  -- 0xC, index12 (R65)
  | jmp    (x : Operand)  -- 0xD, index12 (R66)
  | wext   (x : Operand)  -- 0xE, operand ignored (R51)
  | rext   (x : Operand)  -- 0xF, operand ignored (R52)
deriving DecidableEq, Repr

end Sys2Proof
end

