-- ==== Sys2Proof/WellFormed.lean ====
section
/-! DEFINITION. What is well formed. An instruction's operand is a 12-bit value by its type, and "no encoding is illegal"
(spec/30_encoding.md R35), so every Instr is well formed and no check on it can refuse one. What can be ill formed is
the pair of numbers the assembler hands to the encoder: R37 defines encode for an opcode 0 to 15 and an argument 0 to
65535. -/

namespace Sys2Proof

/-- Every instruction is well formed: all 65536 words are instructions (R35), whatever the ignored bits hold (R36). -/
def Instr.wellFormed (i : Instr) : Bool :=
  match i with
  | .noop _ | .wext _ | .rext _ => true
  | .set _ | .add _ | .sub _ => true
  | .load x | .save x | .addMem x | .subMem x | .inc x | .dec x => decide (x.toNat < Config.memBytes)
  | .jmpInz x | .jmpIz x | .jmpIc x | .jmp x => decide (x.toNat ≤ Config.operandMax)

/-- An opcode number and an argument as the assembler has them before encoding (R37, 46_assembler.md R73). -/
structure EncodeArgs where
  opcode   : Nat
  argument : Nat
deriving DecidableEq, Repr

/-- R37: `opcode` 0 to 15. -/
def EncodeArgs.opcodeOk (e : EncodeArgs) : Bool := decide (e.opcode < 16)

/-- R37: `argument` 0 to 65535. -/
def EncodeArgs.argumentOk (e : EncodeArgs) : Bool := decide (e.argument ≤ Config.argMax)

/-- The domain of R37's encode. -/
def EncodeArgs.wellFormed (e : EncodeArgs) : Bool := e.opcodeOk && e.argumentOk

end Sys2Proof
end

