-- ==== Sys2Proof/Decode.lean ====
section
/-! DEFINITION. The decoder and the encoder (spec/30_encoding.md R31, R32, R34, R37) and the byte order of a word
(20_memory.md R22). -/

namespace Sys2Proof

/-- The first byte of a word in memory, `w[15:8]` (20_memory.md R22: most significant byte at the lower address). -/
def highByte (w : Word) : Byte := w.extractLsb' 8 8

/-- The second byte of a word in memory, `w[7:0]` (R22). -/
def lowByte (w : Word) : Byte := w.extractLsb' 0 8

/-- `opcode = b0[7:4]` (R32). -/
def opcodeField (b0 : Byte) : Opcode := b0.extractLsb' 4 4

/-- `operand = b0[3:0] ++ b1[7:0]` (R32). -/
def operandField (b0 b1 : Byte) : Operand := b0.extractLsb' 0 4 ++ b1

/-- The opcode map (R34): the four opcode bits, most significant first, select one of sixteen instructions.
There is "no default or illegal arm" (40_step_cycle.md R43). -/
def instrOf (op : Opcode) (x : Operand) : Instr :=
  match op.getLsbD 3, op.getLsbD 2, op.getLsbD 1, op.getLsbD 0 with
  | false, false, false, false => .noop x
  | false, false, false, true  => .set x
  | false, false, true,  false => .load x
  | false, false, true,  true  => .save x
  | false, true,  false, false => .add x
  | false, true,  false, true  => .sub x
  | false, true,  true,  false => .addMem x
  | false, true,  true,  true  => .subMem x
  | true,  false, false, false => .inc x
  | true,  false, false, true  => .dec x
  | true,  false, true,  false => .jmpInz x
  | true,  false, true,  true  => .jmpIz x
  | true,  true,  false, false => .jmpIc x
  | true,  true,  false, true  => .jmp x
  | true,  true,  true,  false => .wext x
  | true,  true,  true,  true  => .rext x

/-- `decode(b0, b1)` (R32, R42): total, "every pair of bytes decodes to exactly one of the sixteen instructions". -/
def decode (b0 b1 : Byte) : Instr := instrOf (opcodeField b0) (operandField b0 b1)

/-- The same on the word `w = b0 ++ b1` (R32). -/
def decodeWord (w : Word) : Instr := decode (highByte w) (lowByte w)

/-- Why a list of bytes holds no instruction. -/
inductive DecodeError where
  /-- Fewer than two bytes: an instruction is exactly two (R30). Never raised by the machine, whose fetch always has two. -/
  | truncated
deriving DecidableEq, Repr

/-- The decoder on any bytes: the first instruction and the bytes after it. It rejects nothing but a short list (R35). -/
def decodeBytes : List Byte → Except DecodeError (Instr × List Byte)
  | b0 :: b1 :: rest => .ok (decode b0 b1, rest)
  | _ => .error .truncated

/-! ### The encoder -/

/-- `encode(opcode, argument) = (opcode << 12) | (argument & 0xFFF)` (R37), on an argument of 16 bits. -/
def encodeWord (op : Opcode) (argument : Word) : Word :=
  (op.setWidth 16 <<< 12) ||| (argument &&& 0xFFF#16)

/-- `encode` on the numbers the assembler has, for a pair that is well formed (R37). -/
def encodeArgs (e : EncodeArgs) : Word := encodeWord (BitVec.ofNat 4 e.opcode) (BitVec.ofNat 16 e.argument)

/-- The opcode number of an instruction (R34). -/
def Instr.opcode (i : Instr) : Opcode :=
  match i with
  | .noop _ => 0x0 | .set _ => 0x1 | .load _ => 0x2 | .save _ => 0x3
  | .add _ => 0x4 | .sub _ => 0x5 | .addMem _ => 0x6 | .subMem _ => 0x7
  | .inc _ => 0x8 | .dec _ => 0x9 | .jmpInz _ => 0xA | .jmpIz _ => 0xB
  | .jmpIc _ => 0xC | .jmp _ => 0xD | .wext _ => 0xE | .rext _ => 0xF

/-- The operand of an instruction (R33). -/
def Instr.operand (i : Instr) : Operand :=
  match i with
  | .noop x | .set x | .load x | .save x | .add x | .sub x | .addMem x | .subMem x
  | .inc x | .dec x | .jmpInz x | .jmpIz x | .jmpIc x | .jmp x | .wext x | .rext x => x

/-- The word of an instruction (R37). -/
def encode (i : Instr) : Word := encodeWord i.opcode (i.operand.setWidth 16)

/-- The word as memory holds it, "high byte then low byte" (R37, R22). -/
def encodeBytes (i : Instr) : List Byte := [highByte (encode i), lowByte (encode i)]

/-! ### The host's view of the opcode table -/

/-- The 16 bits of a table row's word: the bits above `nbits` are zero. -/
def tableWord (nbits w : Nat) : Word := BitVec.ofNat 16 (w % 2 ^ nbits)

/-- What the decoder reads from an instruction whose bits are `w`: the word laid out as memory holds it (R22).
An instruction has no more than 16 bits (R30). -/
def decodeTableWord (nbits w : Nat) : Option Instr :=
  if nbits ≤ 16 then
    match decodeBytes [highByte (tableWord nbits w), lowByte (tableWord nbits w)] with
    | .ok (i, []) => some i
    | _ => none
  else none

end Sys2Proof
end

