-- ==== Sys2Proof/Machine/State.lean ====
section
/-! DEFINITION. The state of the block: the record ProcessorState of the Execution Engine and the one remembered value of
the Assembler (spec/10_state.md R10 to R18: "Nothing else is state"), its creation value (R20) and the state after
reset (70_reset_and_hazards.md R110), and the reasons a step can stop. -/

namespace Sys2Proof.Machine

/-- A byte array of 4096 bytes: the cells that do not hold 0x00, addresses strictly rising. A byte with no cell reads
0x00, the creation value of every byte (R20). DEDUCED, log entry 4, safe. -/
abbrev Memory := List Host.Cell

/-- Every piece of state the spec gives the machine. -/
structure State where
  /-- program_counter: the index of the instruction slot the next step fetches, 0 to 2047 (R10). DEDUCED, log entry 3, safe. -/
  pc         : SlotIndex
  /-- accumulator: the sole data register (R13). -/
  acc        : Byte
  /-- carry_flag: the only flag (R14). -/
  carry      : Bool
  /-- running: the only control bit, the host's (R15). -/
  running    : Bool
  /-- working_memory M: code and data (R11). -/
  mem        : Memory
  /-- baseline_image B: the installed program as bytes (R12). -/
  base       : Memory
  /-- last_source: the text last presented for compilation, or none (R17). -/
  lastSource : Option Text
deriving DecidableEq, Repr

/-- R5, R100: "The Execution Engine has no error conditions by design". The list of faults is empty: no one raises one,
so there is no constructor to say safe or unsafe of. Log entry 20. -/
inductive Fault where
deriving DecidableEq, Repr

/-- The reasons for a refusal. -/
inductive Refusal where
  /-- An instruction the model gives no meaning yet, by its mnemonic; safe. No arm of exec raises it: all sixteen have
  their meaning, and R5 says a step has "no refusal arm". -/
  | notModelled (mnemonic : String)
deriving DecidableEq, Repr

/-- Creation (R20): all-zero memory and running = false; pc, acc and carry by decision D2, last_source by D13
(DESIGN CHOICE of the spec, log entries 1 and 14, unsafe where the original differs). -/
def State.creation : State :=
  { pc := 0, acc := 0, carry := false, running := false, mem := [], base := [], lastSource := none }

/-- The machine right after RESET of the created machine (R110, R112): pc, acc, carry and running zero, M a copy of B,
B and last_source as creation left them. No program is in it; log entry 2 says how one comes to run. -/
def State.reset : State :=
  { pc := 0, acc := 0, carry := false, running := false, mem := State.creation.base,
    base := State.creation.base, lastSource := State.creation.lastSource }

end Sys2Proof.Machine
end

