-- ==== Sys2Proof/Machine/Ops.lean ====
section
/-! DEFINITION. The named operations: bytes of memory, field updates, fetch, the control-transfer directives and the
next program counter (spec/20_memory.md, 40_step_cycle.md). Taking an exception and returning from one have no
operation here because the hardware has neither: "no trap mechanism: no entry, no return" (60_exceptions.md R100, R101). -/

namespace Sys2Proof.Machine

/-! ### Memory -/

/-- What a byte with no cell holds (10_state.md R20). -/
def Memory.unlisted : Byte := 0x00

/-- The byte at an address (20_memory.md R21, R26). -/
def Memory.read : Memory → Nat → Byte
  | [], _ => Memory.unlisted
  | (b, v) :: rest, a => if a = b then v else Memory.read rest a

/-- The memory without any cell at `a`. -/
def Memory.erase : Memory → Nat → Memory
  | [], _ => []
  | (b, v) :: rest, a => if a = b then Memory.erase rest a else (b, v) :: Memory.erase rest a

/-- Puts a cell before the first one of a higher address. -/
def Memory.insert : Memory → Nat → Byte → Memory
  | [], a, v => [(a, v)]
  | (b, w) :: rest, a, v => if a < b then (a, v) :: (b, w) :: rest else (b, w) :: Memory.insert rest a v

/-- Sets the byte at `a`, keeping the canonical form: the value an unlisted byte reads as is not listed. -/
def Memory.write (m : Memory) (a : Nat) (v : Byte) : Memory :=
  if v = Memory.unlisted then Memory.erase m a else Memory.insert (Memory.erase m a) a v

/-- The canonical form from a lowest address on: rising addresses below 4096, no cell of the unlisted value. -/
def Memory.wfFrom : Nat → Memory → Bool
  | _, [] => true
  | low, (a, v) :: rest =>
    decide (low ≤ a) && decide (a < Config.memBytes) && decide (v ≠ Memory.unlisted) && Memory.wfFrom (a + 1) rest

/-- The canonical form of a memory. -/
def Memory.wf (m : Memory) : Bool := Memory.wfFrom 0 m

/-! ### Fields -/

def State.setPc (s : State) (p : SlotIndex) : State := { s with pc := p }
def State.setAcc (s : State) (v : Byte) : State := { s with acc := v }
def State.setCarry (s : State) (c : Bool) : State := { s with carry := c }
def State.setRunning (s : State) (r : Bool) : State := { s with running := r }
def State.setMem (s : State) (m : Memory) : State := { s with mem := m }
def State.setBase (s : State) (m : Memory) : State := { s with base := m }
def State.setLastSource (s : State) (t : Option Text) : State := { s with lastSource := t }

/-- The result of an accumulator operation: the byte and the carry together (43_arithmetic.md R56). -/
def State.setResult (s : State) (r : Byte × Bool) : State := (s.setAcc r.1).setCarry r.2

/-! ### Fetch -/

/-- The byte address of slot `p`: `2 * pc` (40_step_cycle.md R41, 20_memory.md R21). -/
def slotAddr (p : SlotIndex) : Nat := 2 * p.toNat

/-- The instruction in slot `p` of working memory: two bytes, decoded (R41, R42). Never from the baseline image. -/
def State.instrAt (s : State) (p : SlotIndex) : Instr :=
  decode (Memory.read s.mem (slotAddr p)) (Memory.read s.mem (slotAddr p + 1))

/-- The instruction the next step executes (R41, R42). -/
def State.fetch (s : State) : Instr := s.instrAt s.pc

/-! ### Control transfer -/

/-- What a handler returns to the pc logic (40_step_cycle.md R40, R43). -/
inductive Directive where
  | advance
  | jump (target : Operand)
deriving DecidableEq, Repr

/-- `next_pc` (R44, R45): advance wraps from 2047 to 0; a target above 2047 goes to 0, it is not reduced modulo 2048. -/
def nextPc (p : SlotIndex) (d : Directive) : SlotIndex :=
  match d with
  | .advance  => if p.toNat + 1 > Config.pcMax then 0 else BitVec.ofNat 11 (p.toNat + 1)
  | .jump t   => if t.toNat > Config.pcMax then 0 else BitVec.ofNat 11 t.toNat

/-- The end of a step: the state the handler left and the directive give the next state (R40 action 3). -/
def complete (s : State) (d : Directive) : Host.Outcome State Fault Refusal :=
  .next (s.setPc (nextPc s.pc d))

end Sys2Proof.Machine
end

