-- ==== Sys2Proof/Machine/Flags.lean ====
section
/-! DEFINITION. The ALU law (spec/43_arithmetic.md R56): 8-bit wraparound arithmetic with the carry flag. The operation is
done on mathematical integers and narrowed once. The second operand is a number, so that both readings of IMM8_RULE
(92_eei_decisions.md D3) are the one law. -/

namespace Sys2Proof.Machine

/-- `((a + b) mod 256, a + b > 255)` (R56). -/
def aluAdd (a b : Nat) : Byte × Bool :=
  (BitVec.ofNat 8 (a + b), decide (a + b > 255))

/-- `((a - b) mod 256, a - b < 0)`, the carry true on borrow (R56). -/
def aluSub (a b : Nat) : Byte × Bool :=
  (BitVec.ofInt 8 ((a : Int) - (b : Int)), decide ((a : Int) - (b : Int) < 0))

/-- `add8` (R56). -/
def add8 (a b : Byte) : Byte × Bool := aluAdd a.toNat b.toNat

/-- `sub8` (R56). -/
def sub8 (a b : Byte) : Byte × Bool := aluSub a.toNat b.toNat

end Sys2Proof.Machine
end

