-- ==== Sys2Proof/Machine/Operands.lean ====
section
/-! DEFINITION. How each opcode reads the 12-bit operand (spec/30_encoding.md R33): imm8, addr12 and index12. An
index12 operand goes to nextPc as it is, its range test being "applied at resolution, not at decode" (45_jumps.md R67 g). -/

namespace Sys2Proof.Machine

/-- imm8: `operand[7:0]`; the bits above are ignored (R33 b). -/
def imm8 (x : Operand) : Byte := x.extractLsb' 0 8

/-- The number add and sub take from the operand under each IMM8_RULE (D3). -/
def immValue (r : ImmRule) (x : Operand) : Nat :=
  match r with
  | .low8   => (imm8 x).toNat
  | .wide12 => x.toNat

/-- The IMM8_RULE this machine follows: the spec's default (D3). DESIGN CHOICE, log entry 5, unsafe where the original is wide12. -/
def immRule : ImmRule := Config.immRule

/-- addr12: all twelve bits, zero-extended, as a byte address (R33 c). -/
def addr12 (x : Operand) : Nat := x.toNat

/-- `MemRead(operand, 1)` (00_scope.md section 6.3). It cannot fail (20_memory.md R24). -/
def State.readByte (s : State) (x : Operand) : Byte := Memory.read s.mem (addr12 x)

/-- `MemWrite(operand, 1, v)` (00_scope.md section 6.3). It cannot fail (20_memory.md R24). -/
def State.writeByte (s : State) (x : Operand) (v : Byte) : State := s.setMem (Memory.write s.mem (addr12 x) v)

end Sys2Proof.Machine
end

