-- ==== Sys2Proof/Machine/Arithmetic.lean ====
section
/-! DEFINITION. add, sub, add_mem and sub_mem (spec/43_arithmetic.md R57 to R60): each writes the accumulator and the
carry flag on every execution. -/

namespace Sys2Proof.Machine

/-- R57, the immediate taken by immRule (D3, log entry 5). -/
def execAdd (x : Operand) (s : State) : Host.Outcome State Fault Refusal :=
  complete (s.setResult (aluAdd s.acc.toNat (immValue immRule x))) .advance

/-- R58, the immediate taken by immRule (D3, log entry 5). -/
def execSub (x : Operand) (s : State) : Host.Outcome State Fault Refusal :=
  complete (s.setResult (aluSub s.acc.toNat (immValue immRule x))) .advance

/-- R59. -/
def execAddMem (x : Operand) (s : State) : Host.Outcome State Fault Refusal :=
  complete (s.setResult (add8 s.acc (s.readByte x))) .advance

/-- R60: accumulator minus memory. -/
def execSubMem (x : Operand) (s : State) : Host.Outcome State Fault Refusal :=
  complete (s.setResult (sub8 s.acc (s.readByte x))) .advance

end Sys2Proof.Machine
end

