-- ==== Sys2Proof/Machine/DataMovement.lean ====
section
/-! DEFINITION. set, load and save (spec/42_data_movement.md R53 to R55). None touches the carry flag. -/

namespace Sys2Proof.Machine

/-- R53: `acc <- operand[7:0]`. -/
def execSet (x : Operand) (s : State) : Host.Outcome State Fault Refusal :=
  complete (s.setAcc (imm8 x)) .advance

/-- R54: `acc <- MemRead(operand, 1)`. -/
def execLoad (x : Operand) (s : State) : Host.Outcome State Fault Refusal :=
  complete (s.setAcc (s.readByte x)) .advance

/-- R55: `MemWrite(operand, 1, acc)`. -/
def execSave (x : Operand) (s : State) : Host.Outcome State Fault Refusal :=
  complete (s.writeByte x s.acc) .advance

end Sys2Proof.Machine
end

