-- ==== Sys2Proof/Machine/IncDec.lean ====
section
/-! DEFINITION. inc and dec (spec/44_incdec.md R61, R62): read-modify-write of a memory byte; the accumulator is neither
read nor written. -/

namespace Sys2Proof.Machine

/-- Writes an ALU result to the byte it came from, and its carry to the flag (R61, R62). -/
def State.writeResult (s : State) (x : Operand) (r : Byte × Bool) : State := (s.writeByte x r.1).setCarry r.2

/-- R61: `add8(m, 1)` on the byte at the operand. -/
def execInc (x : Operand) (s : State) : Host.Outcome State Fault Refusal :=
  complete (s.writeResult x (add8 (s.readByte x) 1)) .advance

/-- R62: `sub8(m, 1)` on the byte at the operand. -/
def execDec (x : Operand) (s : State) : Host.Outcome State Fault Refusal :=
  complete (s.writeResult x (sub8 (s.readByte x) 1)) .advance

end Sys2Proof.Machine
end

