-- ==== Sys2Proof/Machine/Jumps.lean ====
section
/-! DEFINITION. jmp_inz, jmp_iz, jmp_ic and jmp (spec/45_jumps.md R63 to R67). Targets are absolute instruction indexes. -/

namespace Sys2Proof.Machine

/-- A conditional jump's directive (40_step_cycle.md R43). -/
def jumpIf (taken : Bool) (x : Operand) : Directive := if taken then .jump x else .advance

/-- R63. -/
def execJmpInz (x : Operand) (s : State) : Host.Outcome State Fault Refusal :=
  complete s (jumpIf (decide (s.acc ≠ 0)) x)

/-- R64. -/
def execJmpIz (x : Operand) (s : State) : Host.Outcome State Fault Refusal :=
  complete s (jumpIf (decide (s.acc = 0)) x)

/-- R65: the decision uses the flag's value before clearing; the flag is written only when the jump is taken. -/
def execJmpIc (x : Operand) (s : State) : Host.Outcome State Fault Refusal :=
  if s.carry then complete (s.setCarry false) (.jump x) else complete s .advance

/-- R66. -/
def execJmp (x : Operand) (s : State) : Host.Outcome State Fault Refusal :=
  complete s (.jump x)

end Sys2Proof.Machine
end

