-- ==== Sys2Proof/Machine/NoopReserved.lean ====
section
/-! DEFINITION. noop, wext and rext (spec/41_noop_reserved.md R50 to R52): no effect but the program counter's advance. -/

namespace Sys2Proof.Machine

/-- R50. -/
def execNoop (_x : Operand) (s : State) : Host.Outcome State Fault Refusal := complete s .advance

/-- R51: reserved, "behaves as noop"; it touches no device. -/
def execWext (_x : Operand) (s : State) : Host.Outcome State Fault Refusal := complete s .advance

/-- R52: reserved, "behaves as noop"; it does not write the accumulator. -/
def execRext (_x : Operand) (s : State) : Host.Outcome State Fault Refusal := complete s .advance

end Sys2Proof.Machine
end

