-- ==== Sys2Proof/Machine/Dispatch.lean ====
section
/-! DEFINITION. The dispatch of 40_step_cycle.md R43: one handler per opcode, no default arm. -/

namespace Sys2Proof.Machine

def exec (i : Instr) (s : State) : Host.Outcome State Fault Refusal :=
  match i with
  | .noop x => Sys2Proof.Machine.execNoop x s
  | .set x => Sys2Proof.Machine.execSet x s
  | .load x => Sys2Proof.Machine.execLoad x s
  | .save x => Sys2Proof.Machine.execSave x s
  | .add x => Sys2Proof.Machine.execAdd x s
  | .sub x => Sys2Proof.Machine.execSub x s
  | .addMem x => Sys2Proof.Machine.execAddMem x s
  | .subMem x => Sys2Proof.Machine.execSubMem x s
  | .inc x => Sys2Proof.Machine.execInc x s
  | .dec x => Sys2Proof.Machine.execDec x s
  | .jmpInz x => Sys2Proof.Machine.execJmpInz x s
  | .jmpIz x => Sys2Proof.Machine.execJmpIz x s
  | .jmpIc x => Sys2Proof.Machine.execJmpIc x s
  | .jmp x => Sys2Proof.Machine.execJmp x s
  | .wext x => Sys2Proof.Machine.execWext x s
  | .rext x => Sys2Proof.Machine.execRext x s

end Sys2Proof.Machine
end

