-- ==== Sys2Proof/Machine/Step.lean ====
section
/-! DEFINITION. One step of the engine, `step()` (spec/40_step_cycle.md R40): fetch and decode at the program counter, the
handler, the next program counter. It is the host's STEP command (47_loader_host_interface.md R91); the other commands
are in Machine/Commands.lean. -/

namespace Sys2Proof.Machine

/-- `step()` (R40). -/
def step (s : State) : Host.Outcome State Fault Refusal := exec s.fetch s

/-- The state with a word stored in the slot the next step fetches, high byte first (20_memory.md R22). It stands for an
install and a reset that put the word there (DEDUCED, log entry 2, safe). -/
def State.withFetchWord (s : State) (nbits w : Nat) : State :=
  s.setMem (Memory.write (Memory.write s.mem (slotAddr s.pc) (highByte (tableWord nbits w)))
    (slotAddr s.pc + 1) (lowByte (tableWord nbits w)))

end Sys2Proof.Machine
end

