-- ==== Sys2Proof/Machine/Assembler.lean ====
section
/-! DEFINITION. The Assembler, `compile` (spec/46_assembler.md R70 to R78): a pure function from source text to a program
image or one of two errors. The definitions follow the six numbered steps of R71 to R78.
Where a step rests on one of the spec's decisions D7 to D14 its docstring says so: each is DESIGN CHOICE, unsafe where the
original software reads its text otherwise. -/

namespace Sys2Proof.Machine

/-- The two compile errors (R76, R77); they carry nothing (91_not_in_source.md N17). Results, not traps (60_exceptions.md R103). -/
inductive CompileError where
  | malformedLine
  | invalidArgument
deriving DecidableEq, Repr

/-- The result of `compile` (R70): "there is no third error". -/
inductive CompileResult where
  | ok  (image : ProgramImage)
  | err (e : CompileError)
deriving DecidableEq, Repr

/-- ASM_REJECT_WIDE_ARG as this machine has it: the spec's default, truncation (D7). Log entry 7. -/
def rejectWideArg : Bool := Config.rejectWideArg

/-! ### Step 1: lines (R71) -/

/-- The pieces of a text between line feeds U+000A (DESIGN CHOICE of the spec: D8, log entry 9). -/
def splitLines : Text → List Text
  | [] => [[]]
  | c :: cs =>
    if c = '\n' then [] :: splitLines cs
    else match splitLines cs with
      | [] => [[c]]
      | l :: ls => (c :: l) :: ls

/-- One carriage return U+000D at the end of a piece goes with the terminator or the end of the text (D8). -/
def stripCr (l : Text) : Text := if l.getLast? = some '\r' then l.dropLast else l

/-- The lines of a text (R71). -/
def lines (t : Text) : List Text := (splitLines t).map stripCr

/-- "discard any line that is empty or begins with `#`"; empty means length zero (DESIGN CHOICE of the spec: D9, log entry 10). -/
def discarded (l : Text) : Bool :=
  match l with
  | [] => true
  | c :: _ => c == '#'

/-! ### Step 2: the split (R72) -/

/-- The text before and after the first space U+0020, or nothing where there is none (DESIGN CHOICE of the spec: D14, log entry 15). -/
def splitAtSpace : Text → Option (Text × Text)
  | [] => none
  | c :: cs =>
    if c = ' ' then some ([], cs)
    else match splitAtSpace cs with
      | none => none
      | some (m, a) => some (c :: m, a)

/-! ### Step 3: the argument (R73) -/

/-- The six ASCII white-space characters (DESIGN CHOICE of the spec: D11, log entry 12). -/
def isTrimmed (c : Char) : Bool :=
  c == ' ' || c == '\t' || c == '\n' || c == '\x0B' || c == '\x0C' || c == '\r'

/-- Leading white space removed. -/
def trimLeft : Text → Text
  | [] => []
  | c :: cs => if isTrimmed c then trimLeft cs else c :: cs

/-- Leading and trailing white space removed (R73). -/
def trim (t : Text) : Text := (trimLeft (trimLeft t).reverse).reverse

/-- An ASCII digit, `0` to `9` (DESIGN CHOICE of the spec: D10, log entry 11). -/
def isDigit (c : Char) : Bool := decide (48 ≤ c.toNat) && decide (c.toNat ≤ 57)

/-- The value of an ASCII digit. -/
def digitValue (c : Char) : Nat := c.toNat - 48

/-- The value of a string of digits. -/
def digitsValue (t : Text) : Nat := t.foldl (fun n c => 10 * n + digitValue c) 0

/-- The largest argument a line may have: 65535, or 4095 where ASM_REJECT_WIDE_ARG is set (R73, D7). -/
def argumentLimit (rejectWide : Bool) : Nat := if rejectWide then Config.operandMax else Config.argMax

/-- The value of a trimmed argument: one or more digits and nothing else, not above the limit (R73, D10). -/
def parseArgument (rejectWide : Bool) (t : Text) : Option Nat :=
  if t ≠ [] ∧ t.all isDigit = true ∧ digitsValue t ≤ argumentLimit rejectWide then some (digitsValue t) else none

/-! ### Step 4: the mnemonic (R74) -/

/-- The fixed table: "exact spelling, case-sensitive"; a mnemonic's opcode is its place in the list (R74, 90_conflicts.md C1). -/
def mnemonicTable : List Text :=
  [['n','o','o','p'], ['s','e','t'], ['l','o','a','d'], ['s','a','v','e'],
   ['a','d','d'], ['s','u','b'], ['a','d','d','_','m','e','m'], ['s','u','b','_','m','e','m']] ++
  [['i','n','c'], ['d','e','c'], ['j','m','p','_','i','n','z'], ['j','m','p','_','i','z'],
   ['j','m','p','_','i','c'], ['j','m','p'], ['w','e','x','t'], ['r','e','x','t']]

/-- The place of a text in a list, counted from `k`. -/
def indexFrom (k : Nat) (m : Text) : List Text → Option Nat
  | [] => none
  | t :: ts => if t = m then some k else indexFrom (k + 1) m ts

/-- The opcode number of a mnemonic, or nothing for "any other spelling" (R74). -/
def opcodeOfMnemonic (m : Text) : Option Nat := indexFrom 0 m mnemonicTable

/-! ### The line and the text (R70, R75, R78) -/

/-- What one line comes to. -/
inductive LineResult where
  | skip                     -- discarded (R71) or an unknown mnemonic (R74): no word
  | word (e : EncodeArgs)    -- one word, encoded in step 5 (R75)
  | fail (e : CompileError)  -- the whole compilation fails (R72, R73)
deriving DecidableEq, Repr

/-- Steps 1 to 4 on one line, each test before the next (DESIGN CHOICE of the spec: D12, log entry 13). -/
def compileLine (rejectWide : Bool) (l : Text) : LineResult :=
  if discarded l then .skip
  else match splitAtSpace l with
    | none => .fail .malformedLine
    | some (m, a) =>
      match parseArgument rejectWide (trim a) with
      | none => .fail .invalidArgument
      | some n =>
        match opcodeOfMnemonic m with
        | none => .skip
        | some op => .word (EncodeArgs.mk op n)

/-- A single pass over the lines in source order: "the first faulty line decides" (R77, D12, log entry 13), and a failure leaves no
image (R78). -/
def compileLines (rejectWide : Bool) : List Text → CompileResult
  | [] => .ok []
  | l :: ls =>
    match compileLine rejectWide l with
    | .fail e => .err e
    | .skip => compileLines rejectWide ls
    | .word e =>
      match compileLines rejectWide ls with
      | .ok ws => .ok (encodeArgs e :: ws)
      | .err f => .err f

/-- `compile` under a value of ASM_REJECT_WIDE_ARG (R70, D7). -/
def compileWith (rejectWide : Bool) (t : Text) : CompileResult := compileLines rejectWide (lines t)

/-- `compile(source_text)` (R70). -/
def compile (t : Text) : CompileResult := compileWith rejectWideArg t

end Sys2Proof.Machine
end

