-- ==== Sys2Proof/Machine/Commands.lean ====
section
/-! DEFINITION. The loader, the reset operation, the compile trigger and the seven commands of the block
(spec/47_loader_host_interface.md R86 to R95, 70_reset_and_hazards.md R110, 46_assembler.md R83), and the host's loop and
boot order made of them (R94, R113). Each command is one atomic transition (R90). The packaging
in seven commands is DESIGN CHOICE of the spec (D1, D5, D6, log entry 8): safe, it allows more than the original host does. -/

namespace Sys2Proof.Machine

/-! ### The loader (R86, R87) -/

/-- INSTALL_FILL as this machine has it: the spec's default (D4). DESIGN CHOICE, log entry 6, unsafe where the original keeps. -/
def installFill : InstallFill := Config.installFill

/-- A word in slot `k`, high byte then low byte (R86, 20_memory.md R22). -/
def putWord (m : Memory) (k : Nat) (w : Word) : Memory :=
  Memory.write (Memory.write m (2 * k) (highByte w)) (2 * k + 1) (lowByte w)

/-- The words of an image put into slots `k`, `k + 1`, …; a word past slot 2047 is dropped (R86, 90_conflicts.md C7). -/
def layoutFrom : Nat → ProgramImage → Memory → Memory
  | _, [], m => m
  | k, w :: ws, m => if k < Config.nInstr then layoutFrom (k + 1) ws (putWord m k w) else m

/-- The baseline before the image is put in: fresh, or what it held (D4). -/
def installGround (f : InstallFill) (b : Memory) : Memory :=
  match f with
  | .zero => []
  | .keep => b

/-- `install_program(image)` (R86): it writes the baseline image only (R87). -/
def State.install (s : State) (image : ProgramImage) : State :=
  s.setBase (layoutFrom 0 image (installGround installFill s.base))

/-! ### Reset (R110) -/

/-- `reset()` (R110): M a copy of B, registers zero; B and last_source keep their values. -/
def State.doReset (s : State) : State :=
  ((((s.setMem s.base).setPc 0).setAcc 0).setCarry false).setRunning false

/-! ### The commands (R90) -/

/-- What the host may ask of the block (R90). -/
inductive Command where
  | compileIfChanged (text : Text)
  | install (image : ProgramImage)
  | reset
  | step
  | tick
  | setRunning (v : Bool)
  | read
deriving DecidableEq, Repr

/-- The read surface (10_state.md R19, 47 R95): the bytes are M[0] to M[4095]. -/
structure ReadSurface where
  pc      : SlotIndex
  acc     : Byte
  carry   : Bool
  running : Bool
  bytes   : List Byte
deriving DecidableEq, Repr

/-- What a command reports (the result column of R90's table). -/
inductive Response where
  | silent
  | noChange
  | compiled (r : CompileResult)
  | surface (r : ReadSurface)
deriving DecidableEq, Repr

/-- The fields of the read surface as they stand (R95). -/
def State.surface (s : State) : ReadSurface :=
  ReadSurface.mk s.pc s.acc s.carry s.running ((List.range Config.memBytes).map (Memory.read s.mem))

/-- COMPILE_IF_CHANGED (46_assembler.md R83): last_source is set on every attempt, also a failed one (DESIGN CHOICE
of the spec: D13, log entry 14, unsafe where the original starts from the empty text). -/
def State.compileIfChanged (s : State) (t : Text) : State × Response :=
  if s.lastSource = some t then (s, .noChange) else (s.setLastSource (some t), .compiled (compile t))

/-- A step's outcome with the empty report. -/
def silently (o : Host.Outcome State Fault Refusal) : Host.Outcome (State × Response) Fault Refusal :=
  match o with
  | .next s => .next (s, .silent)
  | .fault f => .fault f
  | .refused r => .refused r

/-- One command: the next state and the report (R90 to R95). -/
def command (c : Command) (s : State) : Host.Outcome (State × Response) Fault Refusal :=
  match c with
  | .compileIfChanged t => .next (s.compileIfChanged t)
  | .install image => .next (s.install image, .silent)
  | .reset => .next (s.doReset, .silent)
  | .step => silently (Sys2Proof.Machine.step s)
  | .tick => if s.running then silently (Sys2Proof.Machine.step s) else .next (s, .silent)
  | .setRunning v => .next (s.setRunning v, .silent)
  | .read => .next (s, .surface s.surface)

/-- Commands one after another, their reports in order (00_scope.md R4: strictly sequential). -/
def commands : List Command → State → Host.Outcome (State × List Response) Fault Refusal
  | [], s => .next (s, [])
  | c :: cs, s =>
    match command c s with
    | .fault f => .fault f
    | .refused r => .refused r
    | .next (s', r) =>
      match commands cs s' with
      | .fault f => .fault f
      | .refused r => .refused r
      | .next (s'', rs) => .next (s'', r :: rs)

/-! ### The host's loop (R94) and the boot order (R113) -/

/-- What a report lets the host install: an image, "on success" only (R94, 46_assembler.md R84). -/
def Response.toInstall : Response → List Command
  | .compiled (.ok image) => [.install image]
  | _ => []

/-- What the host asks for in step (c) of its loop: "zero or one instruction steps" (R94). -/
inductive StepRequest where
  | nothing
  | tick
  | single
deriving DecidableEq, Repr

/-- The command of a step request. -/
def StepRequest.toCommands : StepRequest → List Command
  | .nothing => []
  | .tick => [.tick]
  | .single => [.step]

/-- One iteration of the host's loop (R94): compile if changed, install on success, at most one step, read. -/
def hostIteration (text : Text) (req : StepRequest) (s : State) : Host.Outcome (State × List Response) Fault Refusal :=
  commands (.compileIfChanged text :: (s.compileIfChanged text).2.toInstall ++ req.toCommands ++ [.read]) s

/-- The boot order (R113) up to the first step: COMPILE_IF_CHANGED, INSTALL on success, RESET. -/
def boot (text : Text) (s : State) : Host.Outcome (State × List Response) Fault Refusal :=
  commands (.compileIfChanged text :: (s.compileIfChanged text).2.toInstall ++ [.reset]) s

end Sys2Proof.Machine
end

