-- ==== Sys2Proof/Machine/Listing.lean ====
section
/-! DEFINITION. A printer of words, `<mnemonic> <operand in decimal>`. It is the model's own and "not part of the hardware"
(spec/46_assembler.md R85): it is here because R85 says what compile makes of what it prints. Log entry 16. -/

namespace Sys2Proof.Machine

/-- The digit character of a number below ten. -/
def digitChar (d : Nat) : Char := Char.ofNat (48 + d)

/-- The digits of `n` put before `after`, least significant first, as far as the fuel goes. -/
def decimalFrom : Nat → Nat → Text → Text
  | 0, _, after => after
  | fuel + 1, n, after =>
    if n / 10 = 0 then digitChar (n % 10) :: after
    else decimalFrom fuel (n / 10) (digitChar (n % 10) :: after)

/-- A number in decimal, without leading zeros. -/
def decimal (n : Nat) : Text := decimalFrom (n + 1) n []

/-- The mnemonic of an opcode (46_assembler.md R74). -/
def mnemonicOf (op : Opcode) : Text := mnemonicTable.getD op.toNat []

/-- An instruction line: a mnemonic, one space, a decimal argument (R80). -/
def instructionLine (m : Text) (n : Nat) : Text := m ++ ' ' :: decimal n

/-- A word as `<mnemonic of w[15:12]> <w[11:0] in decimal>` (R85). -/
def printWord (w : Word) : Text :=
  instructionLine (mnemonicOf (w.extractLsb' 12 4)) (w.extractLsb' 0 12).toNat

/-- Lines put together, each ended by a line feed. -/
def joinLines : List Text → Text
  | [] => []
  | l :: ls => l ++ '\n' :: joinLines ls

/-- A program image as source text, one line a word. -/
def listing (ws : ProgramImage) : Text := joinLines (ws.map printWord)

end Sys2Proof.Machine
end

