-- ==== Sys2Proof/Safety.lean ====
section
/-! DEFINITION. What counts as a safe state and a safe run, in the terms the statements use, and the two forms of the end
of a run (spec/70_reset_and_hazards.md R119, decision D18, log entry 17). -/

namespace Sys2Proof.Machine

/-- Both byte arrays are in canonical form: 4096 bytes, each with one value. -/
def State.wf (s : State) : Bool := Memory.wf s.mem && Memory.wf s.base

/-- An outcome is a next state with the property; a fault or a refusal is not one. -/
def Ends {σ : Type} (o : Host.Outcome σ Fault Refusal) (P : σ → Prop) : Prop := ∃ t, o = .next t ∧ P t

/-- A safe run (R5): every step of it has a next state. -/
def SafeRun (n : Nat) (s : State) : Prop := Ends (core.run n s) (fun _ => True)

/-- The end of a run, form (a) of R119: the state after exactly `n` steps has the property. -/
def AfterSteps (n : Nat) (s : State) (P : State → Prop) : Prop := Ends (core.run n s) P

/-- The `n`-th step is the first, after at least one step, that arrives at index `e`. -/
def ArrivesFirst (n : Nat) (e : SlotIndex) (s : State) : Prop :=
  0 < n ∧ AfterSteps n s (fun t => t.pc = e) ∧ ∀ k, 0 < k → k < n → AfterSteps k s (fun t => t.pc ≠ e)

/-- The end of a run, form (b) of R119: the property holds at the first time, after at least one step, that pc is `e`. -/
def AtFirstArrival (e : SlotIndex) (s : State) (P : State → Prop) : Prop := ∃ n, ArrivesFirst n e s ∧ AfterSteps n s P

/-- Two states that agree on what `step()` reads (R40): pc, M, acc and carry. -/
def EngineAgree (s t : State) : Prop := s.pc = t.pc ∧ s.acc = t.acc ∧ s.carry = t.carry ∧ s.mem = t.mem

/-- Two states that agree on what no program can reach (60_exceptions.md R106): running, B and last_source. -/
def HostAgree (s t : State) : Prop := s.running = t.running ∧ s.base = t.base ∧ s.lastSource = t.lastSource

end Sys2Proof.Machine

namespace Sys2Proof.Claims

open Sys2Proof.Machine

/-! ### What the spec's tables say of each instruction -/

/-- The address an instruction stores to: save, inc and dec only (spec/10_state.md R11, 20_memory.md R21). -/
def storeAddr (i : Instr) : Option Nat :=
  match i with
  | .save x | .inc x | .dec x => some (addr12 x)
  | .noop _ | .set _ | .load _ | .add _ | .sub _ | .addMem _ | .subMem _ => none
  | .jmpInz _ | .jmpIz _ | .jmpIc _ | .jmp _ | .wext _ | .rext _ => none

/-- The instruction stores the byte `b` at the address `a`: save stores the accumulator (R55), inc and dec the byte they
read, one more or one less modulo 256 (R61, R62); no other instruction stores (20_memory.md R27). -/
def Stores (i : Instr) (s : State) (a b : Nat) : Prop :=
  match i with
  | .save x => a = x.toNat ∧ b = s.acc.toNat
  | .inc x => a = x.toNat ∧ b = ((Memory.read s.mem x.toNat).toNat + 1) % 256
  | .dec x => a = x.toNat ∧ b = ((Memory.read s.mem x.toNat).toNat + 255) % 256
  | .noop _ | .set _ | .load _ | .add _ | .sub _ | .addMem _ | .subMem _ => False
  | .jmpInz _ | .jmpIz _ | .jmpIc _ | .jmp _ | .wext _ | .rext _ => False

/-- The instructions that write the accumulator (10_state.md R13). -/
def writesAcc (i : Instr) : Bool :=
  match i with
  | .set _ | .load _ | .add _ | .sub _ | .addMem _ | .subMem _ => true
  | .noop _ | .save _ | .inc _ | .dec _ => false
  | .jmpInz _ | .jmpIz _ | .jmpIc _ | .jmp _ | .wext _ | .rext _ => false

/-- The six arithmetic instructions (10_state.md R14). -/
def isArithmetic (i : Instr) : Bool :=
  match i with
  | .add _ | .sub _ | .addMem _ | .subMem _ | .inc _ | .dec _ => true
  | .noop _ | .set _ | .load _ | .save _ => false
  | .jmpInz _ | .jmpIz _ | .jmpIc _ | .jmp _ | .wext _ | .rext _ => false

/-- jmp_ic. -/
def isJmpIc (i : Instr) : Bool :=
  match i with
  | .jmpIc _ => true
  | .noop _ | .set _ | .load _ | .save _ | .add _ | .sub _ | .addMem _ | .subMem _ => false
  | .inc _ | .dec _ | .jmpInz _ | .jmpIz _ | .jmp _ | .wext _ | .rext _ => false

/-- The target of a jump that is taken in the state (the condition summary of 45_jumps.md). -/
def takenTarget (i : Instr) (s : State) : Option Nat :=
  match i with
  | .jmpInz x => if s.acc.toNat = 0 then none else some x.toNat
  | .jmpIz x => if s.acc.toNat = 0 then some x.toNat else none
  | .jmpIc x => if s.carry = true then some x.toNat else none
  | .jmp x => some x.toNat
  | .noop _ | .set _ | .load _ | .save _ | .add _ | .sub _ | .addMem _ | .subMem _ => none
  | .inc _ | .dec _ | .wext _ | .rext _ => none

/-! ### The program counter in numbers -/

/-- R44: `pc' = pc + 1`; if `pc' > 2047`, `pc' = 0`. -/
def advanced (s : State) : Nat := if s.pc.toNat + 1 > 2047 then 0 else s.pc.toNat + 1

/-- R45: if `target > 2047`, `pc' = 0`; otherwise `pc' = target`. -/
def jumped (target : Nat) : Nat := if target > 2047 then 0 else target

/-! ### Encodings and source lines -/

/-- An instruction's encoding as its rule gives it: the words of opcode `op` and no others are its, the operand in the
low twelve bits, decoded and encoded. -/
def HasEncoding (op : Opcode) (mk : Operand → Instr) : Prop :=
  (∀ x : Operand, encode (mk x) = op ++ x) ∧ ∀ (w : Word) (x : Operand), decodeWord w = mk x ↔ w = op ++ x

/-- An instruction's assembler form as its rule gives it, `<mnemonic> <n>`, for every operand. -/
def HasForm (op : Opcode) (mnemonic : Text) : Prop :=
  ∀ n, n ≤ 4095 → compile (instructionLine mnemonic n) = .ok [op ++ BitVec.ofNat 12 n]

/-- The sixteen mnemonics with their opcodes (46_assembler.md R74). -/
def mnemonics : List (String × Nat) :=
  [("noop", 0), ("set", 1), ("load", 2), ("save", 3), ("add", 4), ("sub", 5), ("add_mem", 6), ("sub_mem", 7),
   ("inc", 8), ("dec", 9), ("jmp_inz", 10), ("jmp_iz", 11), ("jmp_ic", 12), ("jmp", 13), ("wext", 14), ("rext", 15)]

/-- `ws` of the grammar of 46_assembler.md R80, repeated. -/
def Blank (t : Text) : Prop := ∀ c ∈ t, c = ' ' ∨ c = '\t' ∨ c = '\x0B' ∨ c = '\x0C' ∨ c = '\r'

/-- The value of a decimal numeral. -/
def numeralValue (t : Text) : Nat := t.foldl (fun n c => 10 * n + (c.toNat - '0'.toNat)) 0

/-- `digits` of the grammar: one or more ASCII digits, with a value of at most 65535 (R73, R80). -/
def Numeral (t : Text) : Prop :=
  t ≠ [] ∧ (∀ c ∈ t, '0'.toNat ≤ c.toNat ∧ c.toNat ≤ '9'.toNat) ∧ numeralValue t ≤ 65535

/-- A line that is not discarded: not empty and not a comment (R71). -/
def Retained (l : Text) : Prop := l ≠ [] ∧ l.head? ≠ some '#'

/-- A retained line of the grammar, `<m> " " ws* digits ws*`, whether `m` is a mnemonic or another string (R80). -/
def ArgumentLine (l : Text) : Prop :=
  ∃ m before digits after : Text,
    l = m ++ ' ' :: (before ++ digits ++ after) ∧ ' ' ∉ m ∧ Blank before ∧ Numeral digits ∧ Blank after

/-- A line of an accepted text: empty, a comment, an instruction or an ignored line (R80). -/
def AcceptedLine (l : Text) : Prop := Retained l → ArgumentLine l

end Sys2Proof.Claims
end

