-- ==== Sys2Proof/Certificates/Slice0/Obligations.lean ====
section
/-! DEFINITION. The statements for the provers, each from the numbered rules of spec/. The terms they use are in
Sys2Proof/Safety.lean. A statement that an instruction ends in a next state is its completion statement. -/

open Sys2Proof Sys2Proof.Machine Sys2Proof.Claims

/-! ### Encoding (30_encoding.md) -/

/-- R40 to R42: one step fetches the two bytes at `2*pc` of working memory, decodes them and executes exactly that. -/
def Obligations.StepRunsFetchedInstruction : Prop :=
  ∀ (s : State) (b0 b1 : Byte) (i : Instr),
    Memory.read s.mem (2 * s.pc.toNat) = b0 → Memory.read s.mem (2 * s.pc.toNat + 1) = b1 →
    decodeBytes [b0, b1] = .ok (i, []) → step s = exec i s

/-- R31, R32, R37: decoding an encoded instruction gives it back, whatever bytes follow, with every operand bit. -/
def Obligations.DecodeOfEncode : Prop :=
  ∀ (i : Instr) (rest : List Byte), decodeBytes (encodeBytes i ++ rest) = .ok (i, rest)

/-- R32: the fields of the decoded instruction; every pair of bytes is exactly one instruction; encode gives the same two
bytes back; the same on the word. -/
def Obligations.DecodeFieldsAndInverse : Prop :=
  ∀ b0 b1 : Byte,
    (decode b0 b1).opcode.toNat = b0.toNat / 16 ∧
    (decode b0 b1).operand.toNat = (b0.toNat % 16) * 256 + b1.toNat ∧
    encodeBytes (decode b0 b1) = [b0, b1] ∧
    (∀ i, encodeBytes i = [b0, b1] → i = decode b0 b1) ∧
    ∀ w : Word, w = b0 ++ b1 →
      (decode b0 b1).opcode.toNat = w.toNat / 4096 ∧ (decode b0 b1).operand.toNat = w.toNat % 4096

/-- R37: the encoding formula and the bytes of the word in memory, for every opcode and every 16-bit argument. -/
def Obligations.EncodeFormula : Prop :=
  ∀ op argument : Nat, op < 16 → argument ≤ 65535 →
    (encodeArgs ⟨op, argument⟩).toNat = op * 4096 + argument % 4096 ∧
    (highByte (encodeArgs ⟨op, argument⟩)).toNat = op * 16 + argument / 256 % 16 ∧
    (lowByte (encodeArgs ⟨op, argument⟩)).toNat = argument % 256

/-- A few words written out from the opcode map (R34) and the byte order (R22). That a single byte is refused as truncated
is the model's inference from the one length of two bytes (R30): log entry 21, DEDUCED. -/
def Obligations.WrittenOutWordsDecode : Prop :=
  decodeBytes [0x00, 0x00] = .ok (.noop 0, []) ∧ decodeBytes [0x1F, 0x07] = .ok (.set 3847, []) ∧
  decodeBytes [0x2F, 0xFF] = .ok (.load 4095, []) ∧ decodeBytes [0x46, 0x00] = .ok (.add 1536, []) ∧
  decodeBytes [0x90, 0x29] = .ok (.dec 41, []) ∧ decodeBytes [0xA0, 0x04] = .ok (.jmpInz 4, []) ∧
  decodeBytes [0xE1, 0x23] = .ok (.wext 291, []) ∧ decodeBytes [0xFF, 0xFF] = .ok (.rext 4095, []) ∧
  decodeBytes [0xD0] = .error .truncated

/-! ### The sixteen instructions: encoding, assembler form, result and all that stays as it was -/

/-- R50. -/
def Obligations.NoopOnlyAdvances : Prop :=
  HasEncoding 0x0 Instr.noop ∧ HasForm 0x0 "noop".toList ∧
  ∀ (x : Operand) (s : State), ∃ t, exec (.noop x) s = .next t ∧
    t.pc.toNat = advanced s ∧ t.acc = s.acc ∧ t.carry = s.carry ∧ t.mem = s.mem ∧ HostAgree s t

/-- R51. -/
def Obligations.WextOnlyAdvances : Prop :=
  HasEncoding 0xE Instr.wext ∧ HasForm 0xE "wext".toList ∧
  ∀ (x : Operand) (s : State), ∃ t, exec (.wext x) s = .next t ∧
    t.pc.toNat = advanced s ∧ t.acc = s.acc ∧ t.carry = s.carry ∧ t.mem = s.mem ∧ HostAgree s t

/-- R52. -/
def Obligations.RextOnlyAdvances : Prop :=
  HasEncoding 0xF Instr.rext ∧ HasForm 0xF "rext".toList ∧
  ∀ (x : Operand) (s : State), ∃ t, exec (.rext x) s = .next t ∧
    t.pc.toNat = advanced s ∧ t.acc = s.acc ∧ t.carry = s.carry ∧ t.mem = s.mem ∧ HostAgree s t

/-- R53. -/
def Obligations.SetLoadsImmediate : Prop :=
  HasEncoding 0x1 Instr.set ∧ HasForm 0x1 "set".toList ∧
  ∀ (x : Operand) (s : State), ∃ t, exec (.set x) s = .next t ∧
    t.acc.toNat = x.toNat % 256 ∧
    t.pc.toNat = advanced s ∧ t.carry = s.carry ∧ t.mem = s.mem ∧ HostAgree s t

/-- R54. -/
def Obligations.LoadReadsByte : Prop :=
  HasEncoding 0x2 Instr.load ∧ HasForm 0x2 "load".toList ∧
  ∀ (x : Operand) (s : State), ∃ t, exec (.load x) s = .next t ∧
    t.acc = Memory.read s.mem x.toNat ∧
    t.pc.toNat = advanced s ∧ t.carry = s.carry ∧ t.mem = s.mem ∧ HostAgree s t

/-- R55. -/
def Obligations.SaveWritesByte : Prop :=
  HasEncoding 0x3 Instr.save ∧ HasForm 0x3 "save".toList ∧
  ∀ (x : Operand) (s : State), ∃ t, exec (.save x) s = .next t ∧
    Memory.read t.mem x.toNat = s.acc ∧ (∀ a, a ≠ x.toNat → Memory.read t.mem a = Memory.read s.mem a) ∧
    t.pc.toNat = advanced s ∧ t.acc = s.acc ∧ t.carry = s.carry ∧ HostAgree s t

/-- R57. That the value is `operand[7:0]` for an operand above 255 is the spec's own decision D3 (log entry 5). -/
def Obligations.AddAddsImmediate : Prop :=
  HasEncoding 0x4 Instr.add ∧ HasForm 0x4 "add".toList ∧
  ∀ (x : Operand) (s : State), ∃ t, exec (.add x) s = .next t ∧
    t.acc.toNat = (s.acc.toNat + x.toNat % 256) % 256 ∧ (t.carry = true ↔ s.acc.toNat + x.toNat % 256 > 255) ∧
    t.pc.toNat = advanced s ∧ t.mem = s.mem ∧ HostAgree s t

/-- R58. That the value is `operand[7:0]` for an operand above 255 is the spec's own decision D3 (log entry 5). -/
def Obligations.SubSubtractsImmediate : Prop :=
  HasEncoding 0x5 Instr.sub ∧ HasForm 0x5 "sub".toList ∧
  ∀ (x : Operand) (s : State), ∃ t, exec (.sub x) s = .next t ∧
    (t.acc.toNat : Int) = ((s.acc.toNat : Int) - (x.toNat % 256 : Nat)) % 256 ∧
    (t.carry = true ↔ s.acc.toNat < x.toNat % 256) ∧
    t.pc.toNat = advanced s ∧ t.mem = s.mem ∧ HostAgree s t

/-- R59. -/
def Obligations.AddMemAddsByte : Prop :=
  HasEncoding 0x6 Instr.addMem ∧ HasForm 0x6 "add_mem".toList ∧
  ∀ (x : Operand) (s : State), ∃ t, exec (.addMem x) s = .next t ∧
    t.acc.toNat = (s.acc.toNat + (Memory.read s.mem x.toNat).toNat) % 256 ∧
    (t.carry = true ↔ s.acc.toNat + (Memory.read s.mem x.toNat).toNat > 255) ∧
    t.pc.toNat = advanced s ∧ t.mem = s.mem ∧ HostAgree s t

/-- R60: accumulator minus memory, never the reverse. -/
def Obligations.SubMemSubtractsByte : Prop :=
  HasEncoding 0x7 Instr.subMem ∧ HasForm 0x7 "sub_mem".toList ∧
  ∀ (x : Operand) (s : State), ∃ t, exec (.subMem x) s = .next t ∧
    (t.acc.toNat : Int) = ((s.acc.toNat : Int) - (Memory.read s.mem x.toNat).toNat) % 256 ∧
    (t.carry = true ↔ s.acc.toNat < (Memory.read s.mem x.toNat).toNat) ∧
    t.pc.toNat = advanced s ∧ t.mem = s.mem ∧ HostAgree s t

/-- R61. -/
def Obligations.IncAddsOneInMemory : Prop :=
  HasEncoding 0x8 Instr.inc ∧ HasForm 0x8 "inc".toList ∧
  ∀ (x : Operand) (s : State), ∃ t, exec (.inc x) s = .next t ∧
    (Memory.read t.mem x.toNat).toNat = ((Memory.read s.mem x.toNat).toNat + 1) % 256 ∧
    (∀ a, a ≠ x.toNat → Memory.read t.mem a = Memory.read s.mem a) ∧
    (t.carry = true ↔ (Memory.read s.mem x.toNat).toNat = 255) ∧
    t.pc.toNat = advanced s ∧ t.acc = s.acc ∧ HostAgree s t

/-- R62. -/
def Obligations.DecSubtractsOneInMemory : Prop :=
  HasEncoding 0x9 Instr.dec ∧ HasForm 0x9 "dec".toList ∧
  ∀ (x : Operand) (s : State), ∃ t, exec (.dec x) s = .next t ∧
    (Memory.read t.mem x.toNat).toNat = ((Memory.read s.mem x.toNat).toNat + 255) % 256 ∧
    (∀ a, a ≠ x.toNat → Memory.read t.mem a = Memory.read s.mem a) ∧
    (t.carry = true ↔ (Memory.read s.mem x.toNat).toNat = 0) ∧
    t.pc.toNat = advanced s ∧ t.acc = s.acc ∧ HostAgree s t

/-- R63. -/
def Obligations.JmpInzTestsAccumulator : Prop :=
  HasEncoding 0xA Instr.jmpInz ∧ HasForm 0xA "jmp_inz".toList ∧
  ∀ (x : Operand) (s : State), ∃ t, exec (.jmpInz x) s = .next t ∧
    t.pc.toNat = (if s.acc.toNat = 0 then advanced s else jumped x.toNat) ∧
    t.acc = s.acc ∧ t.carry = s.carry ∧ t.mem = s.mem ∧ HostAgree s t

/-- R64. -/
def Obligations.JmpIzTestsAccumulator : Prop :=
  HasEncoding 0xB Instr.jmpIz ∧ HasForm 0xB "jmp_iz".toList ∧
  ∀ (x : Operand) (s : State), ∃ t, exec (.jmpIz x) s = .next t ∧
    t.pc.toNat = (if s.acc.toNat = 0 then jumped x.toNat else advanced s) ∧
    t.acc = s.acc ∧ t.carry = s.carry ∧ t.mem = s.mem ∧ HostAgree s t

/-- R65: the decision uses the flag's value before clearing; not taken, the flag is not written. -/
def Obligations.JmpIcTestsAndClearsCarry : Prop :=
  HasEncoding 0xC Instr.jmpIc ∧ HasForm 0xC "jmp_ic".toList ∧
  ∀ (x : Operand) (s : State), ∃ t, exec (.jmpIc x) s = .next t ∧
    (s.carry = true → t.pc.toNat = jumped x.toNat ∧ t.carry = false) ∧
    (s.carry = false → t.pc.toNat = advanced s ∧ t.carry = s.carry) ∧
    t.acc = s.acc ∧ t.mem = s.mem ∧ HostAgree s t

/-- R66. -/
def Obligations.JmpAlwaysJumps : Prop :=
  HasEncoding 0xD Instr.jmp ∧ HasForm 0xD "jmp".toList ∧
  ∀ (x : Operand) (s : State), ∃ t, exec (.jmp x) s = .next t ∧
    t.pc.toNat = jumped x.toNat ∧ t.acc = s.acc ∧ t.carry = s.carry ∧ t.mem = s.mem ∧ HostAgree s t

/-! ### Rules over all instructions -/

/-- R44, R45: the next program counter of every instruction in every state. -/
def Obligations.NextProgramCounter : Prop :=
  ∀ (i : Instr) (s : State), ∃ t, exec i s = .next t ∧
    (takenTarget i s = none → t.pc.toNat = (s.pc.toNat + 1) % 2048) ∧
    ∀ target, takenTarget i s = some target → t.pc.toNat = if target > 2047 then 0 else target

/-- R11, R23: every byte outside the one stored to reads as before; an instruction other than save, inc and dec stores
nowhere. -/
def Obligations.MemoryFrame : Prop :=
  ∀ (i : Instr) (s : State), ∃ t, exec i s = .next t ∧
    ∀ a, storeAddr i ≠ some a → Memory.read t.mem a = Memory.read s.mem a

/-- R13: only set, load, add, sub, add_mem and sub_mem write the accumulator. -/
def Obligations.AccumulatorFrame : Prop :=
  ∀ (i : Instr) (s : State), writesAcc i = false → ∃ t, exec i s = .next t ∧ t.acc = s.acc

/-- R14: only the six arithmetic instructions and a taken jmp_ic write the carry flag. -/
def Obligations.CarryFrame : Prop :=
  ∀ (i : Instr) (s : State), isArithmetic i = false → (isJmpIc i = false ∨ s.carry = false) →
    ∃ t, exec i s = .next t ∧ t.carry = s.carry

/-- R14, R56: an arithmetic instruction fully determines the flag: the flag before it plays no part in the result. -/
def Obligations.CarryNeverStale : Prop :=
  ∀ (i : Instr) (s : State) (c : Bool), isArithmetic i = true →
    ∃ t, exec i s = .next t ∧ exec i (s.setCarry c) = .next t

/-- R12, R15, R29, R106: no number of steps changes running, the baseline image or the Assembler's text. -/
def Obligations.ProgramsCannotReachHostState : Prop :=
  ∀ (n : Nat) (s : State), Ends (core.run n s) (fun t => HostAgree s t)

/-- R56: modulo-256 results, carry when the true result falls outside 0 to 255; and the laws 43_arithmetic.md draws from it. -/
def Obligations.AluLawsModulo256 : Prop :=
  ∀ a b : Byte,
    (add8 a b).1.toNat = (a.toNat + b.toNat) % 256 ∧ ((add8 a b).2 = true ↔ a.toNat + b.toNat > 255) ∧
    ((sub8 a b).1.toNat : Int) = ((a.toNat : Int) - b.toNat) % 256 ∧ ((sub8 a b).2 = true ↔ (a.toNat : Int) - b.toNat < 0) ∧
    add8 a 0 = (a, false) ∧ sub8 a 0 = (a, false) ∧ sub8 a a = (0, false) ∧ add8 a b = add8 b a ∧
    ((add8 a b).2 = true ↔ (add8 a b).1.toNat < a.toNat) ∧ ((sub8 a b).2 = true ↔ a.toNat < b.toNat) ∧
    (sub8 (add8 a b).1 b).1 = a

/-- What R57 says of the two readings of IMM8_RULE (decision D3, log entry 5): the same accumulator; the same flag for
operands up to 255; above, the reading set aside has the flag true. -/
def Obligations.ImmediateReadingsDifferOnlyInCarry : Prop :=
  ∀ (a : Byte) (x : Operand),
    (aluAdd a.toNat (immValue .wide12 x)).1 = (aluAdd a.toNat (immValue .low8 x)).1 ∧
    (aluSub a.toNat (immValue .wide12 x)).1 = (aluSub a.toNat (immValue .low8 x)).1 ∧
    (x.toNat ≤ 255 → aluAdd a.toNat (immValue .wide12 x) = aluAdd a.toNat (immValue .low8 x) ∧
      aluSub a.toNat (immValue .wide12 x) = aluSub a.toNat (immValue .low8 x)) ∧
    (x.toNat > 255 → (aluAdd a.toNat (immValue .wide12 x)).2 = true ∧ (aluSub a.toNat (immValue .wide12 x)).2 = true)

/-- R36: all operands of noop, wext and rext act alike; set, add and sub act on the low eight bits only (for add and sub
by decision D3, log entry 5). -/
def Obligations.IgnoredOperandBitsHaveNoEffect : Prop :=
  ∀ (x y : Operand) (s : State),
    (exec (.noop x) s = exec (.noop y) s ∧ exec (.wext x) s = exec (.noop y) s ∧ exec (.rext x) s = exec (.noop y) s) ∧
    (x.toNat % 256 = y.toNat % 256 →
      exec (.set x) s = exec (.set y) s ∧ exec (.add x) s = exec (.add y) s ∧ exec (.sub x) s = exec (.sub y) s)

/-! ### The step and the run -/

/-- R5, R119: a step has a next state in every state, so every run is safe; no fault, no refusal. -/
def Obligations.EveryRunIsSafe : Prop :=
  ∀ (n : Nat) (s : State), SafeRun n s

/-- R40: `step()` never reads or writes running, B or last_source. -/
def Obligations.StepIgnoresHostState : Prop :=
  ∀ s t : State, EngineAgree s t →
    ∃ s' t', step s = .next s' ∧ step t = .next t' ∧ EngineAgree s' t' ∧ HostAgree s s' ∧ HostAgree t t'

/-- R47, R26: one fetch and one data byte: a step's registers, and the byte at its operand, depend on nothing else in
memory. -/
def Obligations.StepReadsOneDataByte : Prop :=
  ∀ s t : State, s.pc = t.pc → s.acc = t.acc → s.carry = t.carry →
    Memory.read s.mem (2 * s.pc.toNat) = Memory.read t.mem (2 * s.pc.toNat) →
    Memory.read s.mem (2 * s.pc.toNat + 1) = Memory.read t.mem (2 * s.pc.toNat + 1) →
    Memory.read s.mem s.fetch.operand.toNat = Memory.read t.mem s.fetch.operand.toNat →
    ∃ s' t', step s = .next s' ∧ step t = .next t' ∧ s'.pc = t'.pc ∧ s'.acc = t'.acc ∧ s'.carry = t'.carry ∧
      Memory.read s'.mem s.fetch.operand.toNat = Memory.read t'.mem s.fetch.operand.toNat

/-- R27, for each of its three writers save, inc and dec and the byte `b` it stores at address `a`: a store to an even
address replaces the opcode and operand bits 11 to 8 of the instruction in that slot, a store to an odd address its operand
bits 7 to 0; every other slot keeps its instruction. -/
def Obligations.StoreRewritesInstructionSlot : Prop :=
  ∀ (i : Instr) (s : State) (a b : Nat), Stores i s a b → ∃ t, exec i s = .next t ∧
    ∀ p : SlotIndex,
      (a = 2 * p.toNat →
        (t.instrAt p).opcode.toNat = b / 16 ∧
        (t.instrAt p).operand.toNat = (b % 16) * 256 + (s.instrAt p).operand.toNat % 256) ∧
      (a = 2 * p.toNat + 1 →
        (t.instrAt p).opcode = (s.instrAt p).opcode ∧
        (t.instrAt p).operand.toNat = (s.instrAt p).operand.toNat / 256 * 256 + b) ∧
      (a / 2 ≠ p.toNat → t.instrAt p = s.instrAt p)

/-- R66, R119: a jump to its own index stays put for any number of steps. -/
def Obligations.SelfJumpStaysPut : Prop :=
  ∀ (n : Nat) (s : State) (x : Operand), s.fetch = .jmp x → x.toNat = s.pc.toNat → AfterSteps n s (fun t => t = s)

/-- What R119 says of form (b) of the end of a run (decision D18, log entry 17): the state at the first arrival at a jump to
itself is repeated for ever, so what holds there holds after that number of steps and every later one. -/
def Obligations.FirstArrivalAtSelfJumpIsFinal : Prop :=
  ∀ (e : SlotIndex) (s : State) (P : State → Prop),
    AtFirstArrival e s (fun t => t.fetch = .jmp (e.setWidth 12) ∧ P t) →
    ∃ n t, ArrivesFirst n e s ∧ ∀ k, AfterSteps (n + k) s (fun u => u = t ∧ P u)

/-- What 10_state.md draws from R20, R50 and R44: where memory is all zero, `n` steps move the program counter alone,
round the 2048 slots. -/
def Obligations.ZeroMemoryWalksProgramCounter : Prop :=
  ∀ (n : Nat) (s : State), (∀ a, Memory.read s.mem a = 0) →
    AfterSteps n s (fun t => t.pc.toNat = (s.pc.toNat + n) % 2048 ∧ t.acc = s.acc ∧ t.carry = s.carry ∧
      t.mem = s.mem ∧ HostAgree s t)

/-! ### Invariants -/

/-- A step keeps the canonical form of both arrays. The form (Memory.wf) is the model's own way to hold the 4096 bytes of
R11 and R12: log entry 4, DEDUCED. -/
def Obligations.StepKeepsCanonicalMemory : Prop :=
  ∀ s : State, s.wf = true → Ends (step s) (fun t => t.wf = true)

/-- Every sequence of commands (R90) keeps the canonical form of both arrays. The form (Memory.wf) is the model's own way
to hold the 4096 bytes of R11 and R12: log entry 4, DEDUCED. -/
def Obligations.CommandsKeepCanonicalMemory : Prop :=
  ∀ (cs : List Command) (s : State), s.wf = true → Ends (commands cs s) (fun r => r.1.wf = true)

/-- The reset state has the canonical form, the model's own way to hold the bytes: log entry 4, DEDUCED. -/
def Obligations.ResetStateIsCanonical : Prop := State.reset.wf = true

/-! ### Reset, the loader and the commands -/

/-- R110, R112 from creation: what reset leaves. B all zero is R20's creation value; that last_source is none is the spec's
decision D13 (log entry 14). -/
def Obligations.ResetStateValues : Prop :=
  command .reset State.creation = .next (State.reset, .silent) ∧
  State.reset.pc = 0 ∧ State.reset.acc = 0 ∧ State.reset.carry = false ∧ State.reset.running = false ∧
  (∀ a, Memory.read State.reset.mem a = 0) ∧ (∀ a, Memory.read State.reset.base a = 0) ∧
  State.reset.lastSource = none ∧ State.reset.fetch = .noop 0

/-- R110: RESET from any state, and what the first step after it executes. -/
def Obligations.ResetCopiesBaseline : Prop :=
  ∀ s : State, ∃ t, command .reset s = .next (t, .silent) ∧
    (∀ a, a < 4096 → Memory.read t.mem a = Memory.read s.base a) ∧
    t.pc = 0 ∧ t.acc = 0 ∧ t.carry = false ∧ t.running = false ∧ t.base = s.base ∧ t.lastSource = s.lastSource ∧
    step t = exec (decode (Memory.read s.base 0) (Memory.read s.base 1)) t

/-- R111: reset is idempotent and undoes whatever any run of the program did. -/
def Obligations.ResetUndoesEveryRun : Prop :=
  ∀ (n : Nat) (s : State), s.doReset.doReset = s.doReset ∧ s.doReset.mem = s.base ∧
    Ends (core.run n s) (fun t => t.doReset = s.doReset)

/-- R86. The zero bytes past the image are the spec's decision D4 (log entry 6). -/
def Obligations.InstallLaysOutImage : Prop :=
  ∀ (image : ProgramImage) (s : State), ∃ t, command (.install image) s = .next (t, .silent) ∧
    (∀ (k : Nat) (w : Word), k < 2048 → image[k]? = some w →
      (Memory.read t.base (2 * k)).toNat = w.toNat / 256 ∧ (Memory.read t.base (2 * k + 1)).toNat = w.toNat % 256) ∧
    (∀ a, 2 * image.length ≤ a → Memory.read t.base a = 0) ∧
    command (.install (image.take 2048)) s = .next (t, .silent)

/-- R87: an install changes nothing a running program can see: installing before any number of steps or after them is
the same, and it leaves M, pc, acc, carry and running as they are. -/
def Obligations.InstallDoesNotDisturbRun : Prop :=
  ∀ (n : Nat) (image : ProgramImage) (s : State),
    EngineAgree s (s.install image) ∧ (s.install image).running = s.running ∧
    ∃ t, core.run n s = .next t ∧ core.run n (s.install image) = .next (t.install image)

/-- R91, R93: STEP steps whatever running is (decision D5) and does not change it; SET_RUNNING changes running alone
(decision D6). Log entry 8. -/
def Obligations.StepAndSetRunningCommands : Prop :=
  ∀ (s : State) (v : Bool), ∃ t u, step s = .next t ∧ command .step s = .next (t, .silent) ∧ t.running = s.running ∧
    command (.setRunning v) s = .next (u, .silent) ∧ u.running = v ∧ EngineAgree s u ∧ u.base = s.base ∧
    u.lastSource = s.lastSource

/-- R92: TICK steps when running is true and changes nothing when it is false. -/
def Obligations.TickHonoursRunning : Prop :=
  ∀ s : State,
    (s.running = true → ∃ t, step s = .next t ∧ command .tick s = .next (t, .silent)) ∧
    (s.running = false → command .tick s = .next (s, .silent))

/-- R95, R19: READ gives the fields and the 4096 bytes of M as they stand and changes nothing. -/
def Obligations.ReadReturnsSurface : Prop :=
  ∀ s : State, ∃ r, command .read s = .next (s, .surface r) ∧
    r.pc = s.pc ∧ r.acc = s.acc ∧ r.carry = s.carry ∧ r.running = s.running ∧ r.bytes.length = 4096 ∧
    ∀ a, a < 4096 → r.bytes[a]? = some (Memory.read s.mem a)

/-- R90: every sequence of commands is accepted in every state. -/
def Obligations.EveryCommandIsAccepted : Prop :=
  ∀ (cs : List Command) (s : State), Ends (commands cs s) (fun r => r.2.length = cs.length)

/-- R83: a text is compiled and reported once; presented again it is NoChange and nothing changes. That a failed text is
remembered too is the spec's decision D13 (log entry 14). -/
def Obligations.CompileSignalsOnce : Prop :=
  ∀ (text : Text) (s : State), ∃ t r, command (.compileIfChanged text) s = .next (t, r) ∧
    (s.lastSource ≠ some text → r = .compiled (compile text)) ∧ (s.lastSource = some text → r = .noChange ∧ t = s) ∧
    command (.compileIfChanged text) t = .next (t, .noChange) ∧
    EngineAgree s t ∧ t.running = s.running ∧ t.base = s.base

/-- R78, R94: in the host's loop a text that fails to compile, or is unchanged, leaves the installed program untouched. -/
def Obligations.FailedCompileKeepsProgram : Prop :=
  ∀ (text : Text) (req : StepRequest) (s : State), Ends (hostIteration text req s) (fun r =>
    ((∃ e, compile text = .err e) ∨ s.lastSource = some text) → r.1.base = s.base)

/-- R113: after the boot order for a text that compiles, the registers are zero, slot k holds instruction k of the image,
and every byte past the image is zero (decision D4, log entry 6). -/
def Obligations.BootLoadsProgram : Prop :=
  ∀ (text : Text) (image : ProgramImage) (s : State), s.lastSource ≠ some text → compile text = .ok image →
    Ends (boot text s) (fun r =>
      r.1.pc = 0 ∧ r.1.acc = 0 ∧ r.1.carry = false ∧ r.1.running = false ∧
      (∀ (p : SlotIndex) (w : Word), image[p.toNat]? = some w →
        r.1.instrAt p = decodeWord w ∧ encode (r.1.instrAt p) = w) ∧
      (∀ a, 2 * image.length ≤ a → Memory.read r.1.mem a = 0) ∧
      r.2 = [.compiled (.ok image), .silent, .silent])

/-! ### The Assembler (46_assembler.md) -/

/-- R85: what the model's printer writes, compile maps back, for every program. -/
def Obligations.ListingCompilesBack : Prop :=
  ∀ image : ProgramImage, compile (listing image) = .ok image

/-- R80: a text compiles exactly when every line is one of the grammar's. The grammar rests on decisions D8 to D11 and D14
(log entries 9 to 12 and 15), and that an argument of 4096 to 65535 is accepted on decision D7 (log entry 7). -/
def Obligations.GrammarDecidesAcceptance : Prop :=
  ∀ text : Text, (∃ image, compile text = .ok image) ↔ ∀ l ∈ lines text, AcceptedLine l

/-- R76, R77: the first line that is not accepted decides the error: MalformedLine where it holds no space,
InvalidArgument where it does (decision D12, log entry 13). What a line is and which are accepted rests on decisions D7 to
D11 and D14 (log entries 7, 9 to 12 and 15). -/
def Obligations.FirstFaultyLineDecides : Prop :=
  ∀ (text : Text) (before : List Text) (l : Text) (after : List Text), lines text = before ++ l :: after →
    (∀ b ∈ before, AcceptedLine b) → ¬ AcceptedLine l →
    (' ' ∉ l → compile text = .err .malformedLine) ∧ (' ' ∈ l → compile text = .err .invalidArgument)

/-- R71, R75, R78, R81: two texts joined by a line feed compile to their words in order, or to the first error. -/
def Obligations.JoinedTextsCompileInOrder : Prop :=
  ∀ t u : Text, compile (t ++ '\n' :: u) =
    match compile t, compile u with
    | .err e, _ => .err e
    | .ok _, .err e => .err e
    | .ok v, .ok w => .ok (v ++ w)

/-- R72 to R75: an instruction line, with any blanks round its numeral, gives one word, the argument cut to twelve bits
(truncation above 4095 is decision D7, log entry 7; blanks and numerals D10, D11, log entries 11 and 12). -/
def Obligations.InstructionLineEmitsWord : Prop :=
  ∀ (m : String) (op : Nat) (before digits after : Text), (m, op) ∈ mnemonics →
    Blank before → Numeral digits → Blank after →
    compile (m.toList ++ ' ' :: (before ++ digits ++ after)) =
      .ok [BitVec.ofNat 16 (op * 4096 + numeralValue digits % 4096)]

/-- R74: a line of any other spelling that passes steps 2 and 3 gives no word and no error (decision D12, log entry 13).
That the line passes them rests on decision D7 for arguments of 4096 to 65535 (log entry 7), D10 for the numeral (log entry
11), D11 for the blanks (log entry 12) and D14 for a tab in the spelling (log entry 15). -/
def Obligations.UnknownMnemonicIsSkipped : Prop :=
  ∀ m before digits after : Text, (∀ e ∈ mnemonics, m ≠ e.1.toList) → ' ' ∉ m → '\n' ∉ m →
    Blank before → Numeral digits → Blank after →
    compile (m ++ ' ' :: (before ++ digits ++ after)) = .ok []
end

