-- ==== Sys2Proof/Laws/Assembler.lean ====
section
/-! SUPPORT. What each stage of the Assembler does, once: lines, the split at the space, the trim, the numeral, one line,
a list of lines; and the printer's decimal numerals. -/

namespace Sys2Proof.Machine

/-! ### Lines (46_assembler.md R71) -/

theorem splitLines_ne_nil (t : Text) : splitLines t ≠ [] := by
  cases t with
  | nil => simp [splitLines]
  | cons c cs =>
    unfold splitLines
    split
    · simp
    · split <;> simp

/-- A line feed ends the last piece before it. -/
theorem splitLines_append_lf (t u : Text) : splitLines (t ++ '\n' :: u) = splitLines t ++ splitLines u := by
  induction t with
  | nil => simp [splitLines]
  | cons c cs ih =>
    obtain ⟨l, ls, h⟩ := List.exists_cons_of_ne_nil (splitLines_ne_nil cs)
    by_cases hc : c = '\n'
    · simp only [List.cons_append, splitLines, if_pos hc, ih]
    · simp only [List.cons_append, splitLines, if_neg hc, ih, h]

theorem lines_append_lf (t u : Text) : lines (t ++ '\n' :: u) = lines t ++ lines u := by
  simp [lines, splitLines_append_lf]

theorem splitLines_of_no_lf {t : Text} (h : '\n' ∉ t) : splitLines t = [t] := by
  induction t with
  | nil => rfl
  | cons c cs ih =>
    simp only [List.mem_cons, not_or] at h
    simp only [splitLines, if_neg (Ne.symm h.1), ih h.2]

theorem lines_of_no_lf {t : Text} (h : '\n' ∉ t) : lines t = [stripCr t] := by
  simp [lines, splitLines_of_no_lf h]

theorem no_lf_of_mem_splitLines {t l : Text} (h : l ∈ splitLines t) : '\n' ∉ l := by
  induction t generalizing l with
  | nil => simp [splitLines] at h; simp [h]
  | cons c cs ih =>
    obtain ⟨k, ks, hk⟩ := List.exists_cons_of_ne_nil (splitLines_ne_nil cs)
    by_cases hc : c = '\n'
    · simp only [splitLines, if_pos hc, List.mem_cons] at h
      rcases h with rfl | h
      · simp
      · exact ih h
    · simp only [splitLines, if_neg hc, hk, List.mem_cons] at h
      rcases h with rfl | h
      · simp only [List.mem_cons, not_or]
        exact ⟨Ne.symm hc, ih (by simp [hk])⟩
      · exact ih (by simp [hk, h])

theorem stripCr_eq_or (l : Text) : stripCr l = l ∨ l = stripCr l ++ ['\r'] := by
  unfold stripCr
  split
  · rename_i h
    right
    obtain ⟨a, rfl⟩ := List.getLast?_eq_some_iff.mp h
    simp
  · exact Or.inl rfl

theorem no_lf_of_mem_lines {t l : Text} (h : l ∈ lines t) : '\n' ∉ l := by
  obtain ⟨k, hk, rfl⟩ := List.mem_map.mp h
  have := no_lf_of_mem_splitLines hk
  rcases stripCr_eq_or k with he | he
  · rwa [he]
  · rw [he] at this; simp at this; exact this

/-- A text that does not end in a carriage return loses nothing. -/
theorem stripCr_of_getLast {l : Text} (h : l.getLast? ≠ some '\r') : stripCr l = l := by
  unfold stripCr; rw [if_neg h]

/-! ### The split (R72) -/

theorem splitAtSpace_append {m : Text} (a : Text) (h : ' ' ∉ m) : splitAtSpace (m ++ ' ' :: a) = some (m, a) := by
  induction m with
  | nil => simp [splitAtSpace]
  | cons c cs ih =>
    simp only [List.mem_cons, not_or] at h
    simp only [List.cons_append, splitAtSpace, if_neg (Ne.symm h.1), ih h.2]

/-- The split finds the first space, or there is none. -/
theorem splitAtSpace_cases (l : Text) :
    (' ' ∉ l ∧ splitAtSpace l = none) ∨ ∃ m a, l = m ++ ' ' :: a ∧ ' ' ∉ m ∧ splitAtSpace l = some (m, a) := by
  induction l with
  | nil => exact Or.inl ⟨by simp, rfl⟩
  | cons c cs ih =>
    by_cases hc : c = ' '
    · exact Or.inr ⟨[], cs, by simp [hc], by simp, by simp [splitAtSpace, hc]⟩
    · rcases ih with ⟨h, e⟩ | ⟨m, a, rfl, h, e⟩
      · exact Or.inl ⟨by simp [h, Ne.symm hc], by simp [splitAtSpace, hc, e]⟩
      · exact Or.inr ⟨c :: m, a, rfl, by simp [h, Ne.symm hc], by simp [splitAtSpace, hc, e]⟩

/-! ### The trim (R73) -/

theorem trimLeft_cases (t : Text) :
    ∃ before, t = before ++ trimLeft t ∧ (∀ c ∈ before, isTrimmed c = true) ∧
      ∀ c, (trimLeft t).head? = some c → isTrimmed c = false := by
  induction t with
  | nil => exact ⟨[], rfl, by simp, by simp [trimLeft]⟩
  | cons d t ih =>
    obtain ⟨before, he, hb, hh⟩ := ih
    by_cases hd : isTrimmed d = true
    · refine ⟨d :: before, ?_, ?_, ?_⟩
      · simpa [trimLeft, hd] using he
      · simpa [hd] using hb
      · simpa [trimLeft, hd] using hh
    · exact ⟨[], by simp [trimLeft, hd], by simp, by simp [trimLeft, hd]⟩

/-- Where the first character stays, nothing is trimmed from the left. -/
theorem trimLeft_append {before t : Text} (hb : ∀ c ∈ before, isTrimmed c = true)
    (ht : ∀ c, t.head? = some c → isTrimmed c = false) : trimLeft (before ++ t) = t := by
  induction before with
  | nil =>
    cases t with
    | nil => rfl
    | cons c t => simp [trimLeft, ht c rfl]
  | cons c before ih =>
    simp only [List.cons_append, trimLeft, if_pos (hb c (by simp))]
    exact ih fun d hd => hb d (by simp [hd])

/-- A trim removes the white space round a text that has none at either end. -/
theorem trim_append {before t after : Text} (hb : ∀ c ∈ before, isTrimmed c = true)
    (ha : ∀ c ∈ after, isTrimmed c = true) (hne : t ≠ []) (ht : ∀ c ∈ t, isTrimmed c = false) :
    trim (before ++ t ++ after) = t := by
  unfold trim
  rw [List.append_assoc, trimLeft_append hb, List.reverse_append, trimLeft_append, List.reverse_reverse]
  · simpa using ha
  · intro c hc
    exact ht c (by simpa using List.mem_of_mem_head? hc)
  · intro c hc
    rw [List.head?_append_of_ne_nil _ hne] at hc
    exact ht c (List.mem_of_mem_head? hc)

/-- What a trim leaves, with the white space it removed. -/
theorem trim_cases (t : Text) :
    ∃ before after, t = before ++ trim t ++ after ∧ (∀ c ∈ before, isTrimmed c = true) ∧
      ∀ c ∈ after, isTrimmed c = true := by
  obtain ⟨b, he, hb, -⟩ := trimLeft_cases t
  obtain ⟨a, hae, ha, -⟩ := trimLeft_cases (trimLeft t).reverse
  refine ⟨b, a.reverse, ?_, hb, by simpa using ha⟩
  have : trimLeft t = trim t ++ a.reverse := by
    rw [← List.reverse_reverse (trimLeft t), hae]; simp [trim]
  rw [List.append_assoc, ← this]; exact he

/-! ### The numeral (R73) -/

theorem not_trimmed_of_isDigit {c : Char} (h : isDigit c = true) : isTrimmed c = false := by
  simp only [isDigit, Bool.and_eq_true, decide_eq_true_eq] at h
  simp only [isTrimmed, Bool.or_eq_false_iff, beq_eq_false_iff_ne]
  refine ⟨⟨⟨⟨⟨?_, ?_⟩, ?_⟩, ?_⟩, ?_⟩, ?_⟩ <;> rintro rfl <;> revert h <;> decide

theorem parseArgument_eq_some {r : Bool} {t : Text} {n : Nat} :
    parseArgument r t = some n ↔
      t ≠ [] ∧ (∀ c ∈ t, isDigit c = true) ∧ digitsValue t ≤ argumentLimit r ∧ digitsValue t = n := by
  unfold parseArgument
  split
  · rename_i h
    simp only [List.all_eq_true] at h
    simp only [Option.some.injEq]
    tauto
  · rename_i h
    simp only [List.all_eq_true] at h
    simp only [reduceCtorEq, false_iff]
    tauto

/-- The value of a numeral with one more digit. -/
theorem digitsValue_snoc (t : Text) (c : Char) : digitsValue (t ++ [c]) = 10 * digitsValue t + digitValue c := by
  simp [digitsValue]

/-! ### One line and a list of lines (R70, R78) -/

/-- A retained line with a space is its mnemonic and its argument. -/
theorem compileLine_split {r : Bool} {m : Text} (a : Text) (hd : discarded (m ++ ' ' :: a) = false) (hm : ' ' ∉ m) :
    compileLine r (m ++ ' ' :: a) =
      match parseArgument r (trim a) with
      | none => .fail .invalidArgument
      | some n =>
        match opcodeOfMnemonic m with
        | none => .skip
        | some op => .word (EncodeArgs.mk op n) := by
  unfold compileLine
  rw [splitAtSpace_append a hm, hd]
  rfl

/-- A retained line without a space is malformed. -/
theorem compileLine_no_space {r : Bool} {l : Text} (hd : discarded l = false) (h : ' ' ∉ l) :
    compileLine r l = .fail .malformedLine := by
  unfold compileLine
  rcases splitAtSpace_cases l with ⟨-, e⟩ | ⟨m, a, rfl, -⟩
  · rw [e, hd]; rfl
  · simp at h

/-- Two results put together: the first error, or the words in order. -/
def CompileResult.append (v w : CompileResult) : CompileResult :=
  match v, w with
  | .err e, _ => .err e
  | .ok _, .err e => .err e
  | .ok v, .ok w => .ok (v ++ w)

theorem compileLines_append (r : Bool) (ls ks : List Text) :
    compileLines r (ls ++ ks) = (compileLines r ls).append (compileLines r ks) := by
  induction ls with
  | nil =>
    simp only [List.nil_append, compileLines, CompileResult.append]
    split <;> simp_all
  | cons l ls ih =>
    simp only [List.cons_append, compileLines]
    cases compileLine r l with
    | fail e => rfl
    | skip => exact ih
    | word e =>
      simp only [ih]
      cases compileLines r ls <;> cases compileLines r ks <;> rfl

theorem indexFrom_lt {k j : Nat} {m : Text} {ts : List Text} (h : indexFrom k m ts = some j) : j < k + ts.length := by
  induction ts generalizing k with
  | nil => cases h
  | cons t ts ih =>
    unfold indexFrom at h
    split at h
    · cases h; simp
    · have := ih h
      simp only [List.length_cons]; omega

/-- Every pair the assembler hands to the encoder is in the domain of R37. -/
theorem compileLine_wellFormed {r : Bool} {l : Text} {e : EncodeArgs} (h : compileLine r l = .word e) :
    e.wellFormed = true := by
  unfold compileLine at h
  split at h
  · cases h
  · split at h
    · cases h
    · split at h
      · cases h
      · rename_i n hn
        split at h
        · cases h
        · rename_i op hop
          cases h
          have hlim : argumentLimit r ≤ 65535 := by cases r <;> decide
          have hargs := (parseArgument_eq_some.mp hn).2.2
          have hop' : op < 0 + 16 := indexFrom_lt (ts := mnemonicTable) hop
          exact Bool.and_eq_true_iff.mpr ⟨decide_eq_true hop', decide_eq_true (show n ≤ 65535 by omega)⟩

/-! ### The printer's numerals -/

theorem digitChar_isDigit {d : Nat} (h : d < 10) : isDigit (digitChar d) = true := by
  interval_cases d <;> decide

theorem digitValue_digitChar {d : Nat} (h : d < 10) : digitValue (digitChar d) = d := by
  interval_cases d <;> decide

/-- The digits put before a text are digits, at least one. -/
theorem decimalFrom_cases (fuel n : Nat) (after : Text) (h : n < fuel) :
    ∃ ds, decimalFrom fuel n after = ds ++ after ∧ ds ≠ [] ∧ (∀ c ∈ ds, isDigit c = true) ∧ digitsValue ds = n := by
  induction fuel generalizing n after with
  | zero => omega
  | succ fuel ih =>
    have hd : n % 10 < 10 := Nat.mod_lt _ (by decide)
    unfold decimalFrom
    split
    · refine ⟨[digitChar (n % 10)], rfl, by simp, by simpa using digitChar_isDigit hd, ?_⟩
      have := digitsValue_snoc [] (digitChar (n % 10))
      rw [List.nil_append, digitValue_digitChar hd] at this
      rw [this, show digitsValue [] = 0 from rfl]; omega
    · obtain ⟨ds, he, -, hdig, hv⟩ := ih (n / 10) (digitChar (n % 10) :: after) (by omega)
      refine ⟨ds ++ [digitChar (n % 10)], by simp [he], by simp, ?_, ?_⟩
      · intro c hc
        rcases List.mem_append.mp hc with hc | hc
        · exact hdig c hc
        · rw [List.mem_singleton.mp hc]; exact digitChar_isDigit hd
      · rw [digitsValue_snoc, hv, digitValue_digitChar hd]; omega

/-- A printed number is a numeral of its value. -/
theorem decimal_spec (n : Nat) :
    decimal n ≠ [] ∧ (∀ c ∈ decimal n, isDigit c = true) ∧ digitsValue (decimal n) = n := by
  obtain ⟨ds, he, h⟩ := decimalFrom_cases (n + 1) n [] (by omega)
  rw [List.append_nil] at he
  rw [decimal, he]; exact h

end Sys2Proof.Machine
end

