-- ==== Sys2Proof/Laws/Decode.lean ====
section
/-! SUPPORT. The fields of a word and of its two bytes as numbers, and what instrOf makes of its arguments. -/

namespace Sys2Proof

/-! ### The opcode map -/

/-- The opcode map loses no opcode bit. -/
@[simp] theorem instrOf_opcode (op : Opcode) (x : Operand) : (instrOf op x).opcode = op := by
  obtain ⟨n, hn, rfl⟩ : ∃ n, n < 16 ∧ op = BitVec.ofNat 4 n := ⟨op.toNat, op.isLt, by simp⟩
  interval_cases n <;> rfl

/-- The opcode map loses no operand bit. -/
@[simp] theorem instrOf_operand (op : Opcode) (x : Operand) : (instrOf op x).operand = x := by
  obtain ⟨n, hn, rfl⟩ : ∃ n, n < 16 ∧ op = BitVec.ofNat 4 n := ⟨op.toNat, op.isLt, by simp⟩
  interval_cases n <;> rfl

/-- An instruction is the one of its opcode and its operand. -/
@[simp] theorem instrOf_fields (i : Instr) : instrOf i.opcode i.operand = i := by
  cases i <;> simp [Instr.opcode, Instr.operand, instrOf]

/-- Opcode and operand decide the instruction. -/
theorem Instr.eq_of_fields {i j : Instr} (ho : i.opcode = j.opcode) (hx : i.operand = j.operand) : i = j := by
  rw [← instrOf_fields i, ho, hx, instrOf_fields]

/-! ### Fields as numbers -/

theorem highByte_toNat (w : Word) : (highByte w).toNat = w.toNat / 256 := by
  have := w.isLt
  simp only [highByte, BitVec.extractLsb'_toNat, Nat.shiftRight_eq_div_pow]
  omega

theorem lowByte_toNat (w : Word) : (lowByte w).toNat = w.toNat % 256 := by
  simp only [lowByte, BitVec.extractLsb'_toNat, Nat.shiftRight_zero]

theorem opcodeField_toNat (b0 : Byte) : (opcodeField b0).toNat = b0.toNat / 16 := by
  have := b0.isLt
  simp only [opcodeField, BitVec.extractLsb'_toNat, Nat.shiftRight_eq_div_pow]
  omega

theorem operandField_toNat (b0 b1 : Byte) : (operandField b0 b1).toNat = b0.toNat % 16 * 256 + b1.toNat := by
  unfold operandField
  rw [BitVec.toNat_append, ← Nat.shiftLeft_add_eq_or_of_lt b1.isLt, Nat.shiftLeft_eq, BitVec.extractLsb'_toNat,
    Nat.shiftRight_zero]

/-- An opcode and an operand put together as a word (R31). -/
theorem append_toNat (op : Opcode) (x : Operand) : (op ++ x : Word).toNat = op.toNat * 4096 + x.toNat := by
  have h := BitVec.toNat_append op x
  rw [← Nat.shiftLeft_add_eq_or_of_lt x.isLt, Nat.shiftLeft_eq] at h
  exact h

/-- Two bytes put together as a word (R32). -/
theorem bytes_toNat (b0 b1 : Byte) : (b0 ++ b1 : Word).toNat = b0.toNat * 256 + b1.toNat := by
  have h := BitVec.toNat_append b0 b1
  rw [← Nat.shiftLeft_add_eq_or_of_lt b1.isLt, Nat.shiftLeft_eq] at h
  exact h

/-- The encoding formula in numbers (R37). -/
theorem encodeWord_toNat (op : Opcode) (argument : Word) :
    (encodeWord op argument).toNat = op.toNat * 4096 + argument.toNat % 4096 := by
  have ho := op.isLt
  have ha : argument.toNat % 4096 < 2 ^ 12 := Nat.mod_lt _ (by decide)
  unfold encodeWord
  rw [BitVec.toNat_or, BitVec.toNat_and, BitVec.toNat_shiftLeft, BitVec.toNat_setWidth, Nat.shiftLeft_eq,
    show (0xFFF#16).toNat = 2 ^ 12 - 1 from rfl, Nat.and_two_pow_sub_one_eq_mod,
    Nat.mod_eq_of_lt (show op.toNat < 2 ^ 16 by omega), Nat.mod_eq_of_lt (show op.toNat * 2 ^ 12 < 2 ^ 16 by omega),
    ← Nat.shiftLeft_eq, ← Nat.shiftLeft_add_eq_or_of_lt ha, Nat.shiftLeft_eq]

/-- The word of an instruction is its opcode above its operand. -/
theorem encode_eq_append (i : Instr) : encode i = i.opcode ++ i.operand := by
  apply BitVec.eq_of_toNat_eq
  have hx := i.operand.isLt
  rw [append_toNat, encode, encodeWord_toNat, BitVec.toNat_setWidth]
  omega

theorem encode_toNat (i : Instr) : (encode i).toNat = i.opcode.toNat * 4096 + i.operand.toNat := by
  rw [encode_eq_append, append_toNat]

/-- A word is the two bytes memory holds it as (20_memory.md R22). -/
theorem highByte_append_lowByte (w : Word) : (highByte w ++ lowByte w : Word) = w := by
  apply BitVec.eq_of_toNat_eq
  rw [bytes_toNat, highByte_toNat, lowByte_toNat]
  omega

@[simp] theorem decode_opcode (b0 b1 : Byte) : (decode b0 b1).opcode = opcodeField b0 := by simp [decode]

@[simp] theorem decode_operand (b0 b1 : Byte) : (decode b0 b1).operand = operandField b0 b1 := by simp [decode]

theorem decodeWord_opcode_toNat (w : Word) : (decodeWord w).opcode.toNat = w.toNat / 4096 := by
  rw [decodeWord, decode_opcode, opcodeField_toNat, highByte_toNat]
  omega

theorem decodeWord_operand_toNat (w : Word) : (decodeWord w).operand.toNat = w.toNat % 4096 := by
  rw [decodeWord, decode_operand, operandField_toNat, highByte_toNat, lowByte_toNat]
  omega

end Sys2Proof
end

