-- ==== Sys2Proof/Laws/Flags.lean ====
section
/-! SUPPORT. The ALU and the operand forms as numbers. -/

namespace Sys2Proof.Machine

@[simp] theorem aluAdd_toNat (a b : Nat) : (aluAdd a b).1.toNat = (a + b) % 256 := by
  simp [aluAdd, BitVec.toNat_ofNat]

@[simp] theorem aluAdd_carry (a b : Nat) : (aluAdd a b).2 = true ↔ a + b > 255 := by
  simp [aluAdd]

@[simp] theorem aluSub_toNat (a b : Nat) : ((aluSub a b).1.toNat : Int) = ((a : Int) - (b : Int)) % 256 := by
  simp [aluSub, BitVec.toNat_ofInt]
  omega

@[simp] theorem aluSub_carry (a b : Nat) : (aluSub a b).2 = true ↔ a < b := by
  simp [aluSub]

/-- A difference without the sign: adding what is missing to 256. -/
theorem aluSub_toNat_of_le (a b : Nat) (hb : b ≤ 256) : (aluSub a b).1.toNat = (a + (256 - b)) % 256 := by
  have := aluSub_toNat a b
  omega

@[simp] theorem imm8_toNat (x : Operand) : (imm8 x).toNat = x.toNat % 256 := by
  simp only [imm8, BitVec.extractLsb'_toNat, Nat.shiftRight_zero]

/-- The value add and sub take under the rule this machine follows (D3). -/
@[simp] theorem immValue_immRule (x : Operand) : immValue immRule x = x.toNat % 256 := imm8_toNat x

theorem addr12_lt (x : Operand) : addr12 x < 4096 := x.isLt

end Sys2Proof.Machine
end

