-- ==== Sys2Proof/Laws/State.lean ====
section
/-! SUPPORT. One lemma per field per update of State, true by rfl, so that no proof unfolds a record update. -/

namespace Sys2Proof.Machine

@[simp] theorem State.setPc_pc (s : State) (p : SlotIndex) : (s.setPc p).pc = p := rfl
@[simp] theorem State.setPc_acc (s : State) (p : SlotIndex) : (s.setPc p).acc = s.acc := rfl
@[simp] theorem State.setPc_carry (s : State) (p : SlotIndex) : (s.setPc p).carry = s.carry := rfl
@[simp] theorem State.setPc_running (s : State) (p : SlotIndex) : (s.setPc p).running = s.running := rfl
@[simp] theorem State.setPc_mem (s : State) (p : SlotIndex) : (s.setPc p).mem = s.mem := rfl
@[simp] theorem State.setPc_base (s : State) (p : SlotIndex) : (s.setPc p).base = s.base := rfl
@[simp] theorem State.setPc_lastSource (s : State) (p : SlotIndex) : (s.setPc p).lastSource = s.lastSource := rfl

@[simp] theorem State.setAcc_pc (s : State) (v : Byte) : (s.setAcc v).pc = s.pc := rfl
@[simp] theorem State.setAcc_acc (s : State) (v : Byte) : (s.setAcc v).acc = v := rfl
@[simp] theorem State.setAcc_carry (s : State) (v : Byte) : (s.setAcc v).carry = s.carry := rfl
@[simp] theorem State.setAcc_running (s : State) (v : Byte) : (s.setAcc v).running = s.running := rfl
@[simp] theorem State.setAcc_mem (s : State) (v : Byte) : (s.setAcc v).mem = s.mem := rfl
@[simp] theorem State.setAcc_base (s : State) (v : Byte) : (s.setAcc v).base = s.base := rfl
@[simp] theorem State.setAcc_lastSource (s : State) (v : Byte) : (s.setAcc v).lastSource = s.lastSource := rfl

@[simp] theorem State.setCarry_pc (s : State) (c : Bool) : (s.setCarry c).pc = s.pc := rfl
@[simp] theorem State.setCarry_acc (s : State) (c : Bool) : (s.setCarry c).acc = s.acc := rfl
@[simp] theorem State.setCarry_carry (s : State) (c : Bool) : (s.setCarry c).carry = c := rfl
@[simp] theorem State.setCarry_running (s : State) (c : Bool) : (s.setCarry c).running = s.running := rfl
@[simp] theorem State.setCarry_mem (s : State) (c : Bool) : (s.setCarry c).mem = s.mem := rfl
@[simp] theorem State.setCarry_base (s : State) (c : Bool) : (s.setCarry c).base = s.base := rfl
@[simp] theorem State.setCarry_lastSource (s : State) (c : Bool) : (s.setCarry c).lastSource = s.lastSource := rfl

@[simp] theorem State.setRunning_pc (s : State) (r : Bool) : (s.setRunning r).pc = s.pc := rfl
@[simp] theorem State.setRunning_acc (s : State) (r : Bool) : (s.setRunning r).acc = s.acc := rfl
@[simp] theorem State.setRunning_carry (s : State) (r : Bool) : (s.setRunning r).carry = s.carry := rfl
@[simp] theorem State.setRunning_running (s : State) (r : Bool) : (s.setRunning r).running = r := rfl
@[simp] theorem State.setRunning_mem (s : State) (r : Bool) : (s.setRunning r).mem = s.mem := rfl
@[simp] theorem State.setRunning_base (s : State) (r : Bool) : (s.setRunning r).base = s.base := rfl
@[simp] theorem State.setRunning_lastSource (s : State) (r : Bool) : (s.setRunning r).lastSource = s.lastSource := rfl

@[simp] theorem State.setMem_pc (s : State) (m : Memory) : (s.setMem m).pc = s.pc := rfl
@[simp] theorem State.setMem_acc (s : State) (m : Memory) : (s.setMem m).acc = s.acc := rfl
@[simp] theorem State.setMem_carry (s : State) (m : Memory) : (s.setMem m).carry = s.carry := rfl
@[simp] theorem State.setMem_running (s : State) (m : Memory) : (s.setMem m).running = s.running := rfl
@[simp] theorem State.setMem_mem (s : State) (m : Memory) : (s.setMem m).mem = m := rfl
@[simp] theorem State.setMem_base (s : State) (m : Memory) : (s.setMem m).base = s.base := rfl
@[simp] theorem State.setMem_lastSource (s : State) (m : Memory) : (s.setMem m).lastSource = s.lastSource := rfl

@[simp] theorem State.setBase_pc (s : State) (m : Memory) : (s.setBase m).pc = s.pc := rfl
@[simp] theorem State.setBase_acc (s : State) (m : Memory) : (s.setBase m).acc = s.acc := rfl
@[simp] theorem State.setBase_carry (s : State) (m : Memory) : (s.setBase m).carry = s.carry := rfl
@[simp] theorem State.setBase_running (s : State) (m : Memory) : (s.setBase m).running = s.running := rfl
@[simp] theorem State.setBase_mem (s : State) (m : Memory) : (s.setBase m).mem = s.mem := rfl
@[simp] theorem State.setBase_base (s : State) (m : Memory) : (s.setBase m).base = m := rfl
@[simp] theorem State.setBase_lastSource (s : State) (m : Memory) : (s.setBase m).lastSource = s.lastSource := rfl

@[simp] theorem State.setLastSource_pc (s : State) (t : Option Text) : (s.setLastSource t).pc = s.pc := rfl
@[simp] theorem State.setLastSource_acc (s : State) (t : Option Text) : (s.setLastSource t).acc = s.acc := rfl
@[simp] theorem State.setLastSource_carry (s : State) (t : Option Text) : (s.setLastSource t).carry = s.carry := rfl
@[simp] theorem State.setLastSource_running (s : State) (t : Option Text) : (s.setLastSource t).running = s.running := rfl
@[simp] theorem State.setLastSource_mem (s : State) (t : Option Text) : (s.setLastSource t).mem = s.mem := rfl
@[simp] theorem State.setLastSource_base (s : State) (t : Option Text) : (s.setLastSource t).base = s.base := rfl
@[simp] theorem State.setLastSource_lastSource (s : State) (t : Option Text) : (s.setLastSource t).lastSource = t := rfl

@[simp] theorem State.setResult_pc (s : State) (r : Byte × Bool) : (s.setResult r).pc = s.pc := rfl
@[simp] theorem State.setResult_acc (s : State) (r : Byte × Bool) : (s.setResult r).acc = r.1 := rfl
@[simp] theorem State.setResult_carry (s : State) (r : Byte × Bool) : (s.setResult r).carry = r.2 := rfl
@[simp] theorem State.setResult_running (s : State) (r : Byte × Bool) : (s.setResult r).running = s.running := rfl
@[simp] theorem State.setResult_mem (s : State) (r : Byte × Bool) : (s.setResult r).mem = s.mem := rfl
@[simp] theorem State.setResult_base (s : State) (r : Byte × Bool) : (s.setResult r).base = s.base := rfl
@[simp] theorem State.setResult_lastSource (s : State) (r : Byte × Bool) : (s.setResult r).lastSource = s.lastSource := rfl

@[simp] theorem State.writeByte_pc (s : State) (x : Operand) (v : Byte) : (s.writeByte x v).pc = s.pc := rfl
@[simp] theorem State.writeByte_acc (s : State) (x : Operand) (v : Byte) : (s.writeByte x v).acc = s.acc := rfl
@[simp] theorem State.writeByte_carry (s : State) (x : Operand) (v : Byte) : (s.writeByte x v).carry = s.carry := rfl
@[simp] theorem State.writeByte_running (s : State) (x : Operand) (v : Byte) : (s.writeByte x v).running = s.running := rfl
@[simp] theorem State.writeByte_mem (s : State) (x : Operand) (v : Byte) : (s.writeByte x v).mem = Memory.write s.mem (addr12 x) v := rfl
@[simp] theorem State.writeByte_base (s : State) (x : Operand) (v : Byte) : (s.writeByte x v).base = s.base := rfl
@[simp] theorem State.writeByte_lastSource (s : State) (x : Operand) (v : Byte) : (s.writeByte x v).lastSource = s.lastSource := rfl

@[simp] theorem State.writeResult_pc (s : State) (x : Operand) (r : Byte × Bool) : (s.writeResult x r).pc = s.pc := rfl
@[simp] theorem State.writeResult_acc (s : State) (x : Operand) (r : Byte × Bool) : (s.writeResult x r).acc = s.acc := rfl
@[simp] theorem State.writeResult_carry (s : State) (x : Operand) (r : Byte × Bool) : (s.writeResult x r).carry = r.2 := rfl
@[simp] theorem State.writeResult_running (s : State) (x : Operand) (r : Byte × Bool) : (s.writeResult x r).running = s.running := rfl
@[simp] theorem State.writeResult_mem (s : State) (x : Operand) (r : Byte × Bool) : (s.writeResult x r).mem = Memory.write s.mem (addr12 x) r.1 := rfl
@[simp] theorem State.writeResult_base (s : State) (x : Operand) (r : Byte × Bool) : (s.writeResult x r).base = s.base := rfl
@[simp] theorem State.writeResult_lastSource (s : State) (x : Operand) (r : Byte × Bool) : (s.writeResult x r).lastSource = s.lastSource := rfl

@[simp] theorem State.doReset_pc (s : State) : (s.doReset).pc = 0 := rfl
@[simp] theorem State.doReset_acc (s : State) : (s.doReset).acc = 0 := rfl
@[simp] theorem State.doReset_carry (s : State) : (s.doReset).carry = false := rfl
@[simp] theorem State.doReset_running (s : State) : (s.doReset).running = false := rfl
@[simp] theorem State.doReset_mem (s : State) : (s.doReset).mem = s.base := rfl
@[simp] theorem State.doReset_base (s : State) : (s.doReset).base = s.base := rfl
@[simp] theorem State.doReset_lastSource (s : State) : (s.doReset).lastSource = s.lastSource := rfl

@[simp] theorem State.install_pc (s : State) (ws : ProgramImage) : (s.install ws).pc = s.pc := rfl
@[simp] theorem State.install_acc (s : State) (ws : ProgramImage) : (s.install ws).acc = s.acc := rfl
@[simp] theorem State.install_carry (s : State) (ws : ProgramImage) : (s.install ws).carry = s.carry := rfl
@[simp] theorem State.install_running (s : State) (ws : ProgramImage) : (s.install ws).running = s.running := rfl
@[simp] theorem State.install_mem (s : State) (ws : ProgramImage) : (s.install ws).mem = s.mem := rfl
@[simp] theorem State.install_base (s : State) (ws : ProgramImage) : (s.install ws).base = layoutFrom 0 ws (installGround installFill s.base) := rfl
@[simp] theorem State.install_lastSource (s : State) (ws : ProgramImage) : (s.install ws).lastSource = s.lastSource := rfl

/-- Two states are one when their fields are. -/
theorem State.ext_fields {s t : State} (hpc : s.pc = t.pc) (hacc : s.acc = t.acc) (hcarry : s.carry = t.carry)
    (hrunning : s.running = t.running) (hmem : s.mem = t.mem) (hbase : s.base = t.base)
    (hlast : s.lastSource = t.lastSource) : s = t := by
  cases s; cases t; simp_all

end Sys2Proof.Machine
end

