-- ==== Sys2Proof/Laws/Memory.lean ====
section
/-! SUPPORT. The laws of memory: a read after a write, the canonical form kept by every memory operation, and canonical
memories with the same bytes are the same data. -/

namespace Sys2Proof.Machine

/-- No cell of a memory stands at the address. -/
def Memory.Lacks (m : Memory) (a : Nat) : Prop := ∀ c ∈ m, c.1 ≠ a

@[simp] theorem Memory.read_nil (a : Nat) : Memory.read [] a = 0 := rfl

theorem Memory.read_cons (b : Nat) (v : Byte) (m : Memory) (a : Nat) :
    Memory.read ((b, v) :: m) a = if a = b then v else Memory.read m a := rfl

theorem Memory.read_of_lacks {m : Memory} {a : Nat} (h : m.Lacks a) : m.read a = 0 := by
  induction m with
  | nil => rfl
  | cons c m ih =>
    obtain ⟨b, v⟩ := c
    have hb : b ≠ a := h (b, v) (by simp)
    rw [Memory.read_cons, if_neg (Ne.symm hb)]
    exact ih fun c hc => h c (by simp [hc])

theorem Memory.erase_lacks (m : Memory) (a : Nat) : (m.erase a).Lacks a := by
  induction m with
  | nil => intro c hc; cases hc
  | cons c m ih =>
    obtain ⟨b, v⟩ := c
    unfold Memory.erase
    split
    · exact ih
    · rename_i hab
      intro c hc
      rcases List.mem_cons.mp hc with rfl | hc
      · exact Ne.symm hab
      · exact ih c hc

theorem Memory.read_erase_other {m : Memory} {a b : Nat} (h : b ≠ a) : (m.erase a).read b = m.read b := by
  induction m with
  | nil => rfl
  | cons c m ih =>
    obtain ⟨k, v⟩ := c
    unfold Memory.erase
    split
    · rename_i hak
      rw [ih, Memory.read_cons, if_neg (hak ▸ h)]
    · rw [Memory.read_cons, Memory.read_cons, ih]

theorem Memory.read_insert_same {m : Memory} {a : Nat} (h : m.Lacks a) (v : Byte) : (m.insert a v).read a = v := by
  induction m with
  | nil => simp [Memory.insert, Memory.read_cons]
  | cons c m ih =>
    obtain ⟨b, w⟩ := c
    have hb : b ≠ a := h (b, w) (by simp)
    unfold Memory.insert
    split
    · simp [Memory.read_cons]
    · rw [Memory.read_cons, if_neg (Ne.symm hb)]
      exact ih fun c hc => h c (by simp [hc])

theorem Memory.read_insert_other {m : Memory} {a b : Nat} (h : b ≠ a) (v : Byte) : (m.insert a v).read b = m.read b := by
  induction m with
  | nil => simp [Memory.insert, Memory.read_cons, h]
  | cons c m ih =>
    obtain ⟨k, w⟩ := c
    unfold Memory.insert
    split
    · rw [Memory.read_cons, if_neg h]
    · rw [Memory.read_cons, Memory.read_cons, ih]

/-- A read after a write to the same place gives the value written. -/
@[simp] theorem Memory.read_write_same (m : Memory) (a : Nat) (v : Byte) : (m.write a v).read a = v := by
  unfold Memory.write
  split
  · rename_i hv
    rw [Memory.read_of_lacks (Memory.erase_lacks m a), hv]; rfl
  · exact Memory.read_insert_same (Memory.erase_lacks m a) v

/-- A write leaves every other place alone. -/
theorem Memory.read_write_other (m : Memory) {a b : Nat} (h : b ≠ a) (v : Byte) : (m.write a v).read b = m.read b := by
  unfold Memory.write
  split
  · exact Memory.read_erase_other h
  · rw [Memory.read_insert_other h, Memory.read_erase_other h]

theorem Memory.read_write (m : Memory) (a b : Nat) (v : Byte) :
    (m.write a v).read b = if b = a then v else m.read b := by
  by_cases h : b = a
  · subst h; simp
  · rw [if_neg h, Memory.read_write_other m h]

/-! ### The canonical form -/

theorem Memory.wfFrom_cons (low a : Nat) (v : Byte) (m : Memory) :
    Memory.wfFrom low ((a, v) :: m) = true ↔
      low ≤ a ∧ a < 4096 ∧ v ≠ 0 ∧ Memory.wfFrom (a + 1) m = true := by
  simp only [Memory.wfFrom, Bool.and_eq_true, decide_eq_true_eq, and_assoc]
  exact Iff.rfl

theorem Memory.wfFrom_mono {low low' : Nat} {m : Memory} (h : Memory.wfFrom low m = true) (hl : low' ≤ low) :
    Memory.wfFrom low' m = true := by
  cases m with
  | nil => rfl
  | cons c m =>
    obtain ⟨a, v⟩ := c
    rw [Memory.wfFrom_cons] at h ⊢
    exact ⟨by omega, h.2⟩

theorem Memory.wfFrom_erase {low : Nat} {m : Memory} (a : Nat) (h : Memory.wfFrom low m = true) :
    Memory.wfFrom low (m.erase a) = true := by
  induction m generalizing low with
  | nil => rfl
  | cons c m ih =>
    obtain ⟨b, v⟩ := c
    rw [Memory.wfFrom_cons] at h
    unfold Memory.erase
    split
    · exact Memory.wfFrom_mono (ih h.2.2.2) (by omega)
    · exact (Memory.wfFrom_cons ..).mpr ⟨h.1, h.2.1, h.2.2.1, ih h.2.2.2⟩

theorem Memory.wfFrom_insert {low a : Nat} {m : Memory} {v : Byte} (h : Memory.wfFrom low m = true) (hlow : low ≤ a)
    (ha : a < 4096) (hv : v ≠ 0) (hl : m.Lacks a) : Memory.wfFrom low (m.insert a v) = true := by
  induction m generalizing low with
  | nil => exact (Memory.wfFrom_cons ..).mpr ⟨hlow, ha, hv, rfl⟩
  | cons c m ih =>
    obtain ⟨b, w⟩ := c
    have hb : b ≠ a := hl (b, w) (by simp)
    rw [Memory.wfFrom_cons] at h
    unfold Memory.insert
    split
    · rename_i hab
      exact (Memory.wfFrom_cons ..).mpr
        ⟨hlow, ha, hv, (Memory.wfFrom_cons ..).mpr ⟨by omega, h.2⟩⟩
    · exact (Memory.wfFrom_cons ..).mpr
        ⟨h.1, h.2.1, h.2.2.1, ih h.2.2.2 (by omega) fun c hc => hl c (by simp [hc])⟩

@[simp] theorem Memory.wf_nil : Memory.wf [] = true := rfl

/-- A write inside the address space keeps the canonical form. -/
theorem Memory.wf_write {m : Memory} {a : Nat} (v : Byte) (h : m.wf = true) (ha : a < 4096) :
    (m.write a v).wf = true := by
  unfold Memory.write
  split
  · exact Memory.wfFrom_erase a h
  · rename_i hv
    exact Memory.wfFrom_insert (Memory.wfFrom_erase a h) (Nat.zero_le a) ha hv (Memory.erase_lacks m a)

theorem Memory.wf_putWord {m : Memory} {k : Nat} (w : Word) (h : m.wf = true) (hk : k < 2048) :
    (putWord m k w).wf = true :=
  Memory.wf_write _ (Memory.wf_write _ h (by omega)) (by omega)

/-- Laying out an image keeps the canonical form, wherever it starts and however long it is. -/
theorem Memory.wf_layoutFrom {m : Memory} (k : Nat) (ws : ProgramImage) (h : m.wf = true) :
    (layoutFrom k ws m).wf = true := by
  induction ws generalizing k m with
  | nil => exact h
  | cons w ws ih =>
    unfold layoutFrom
    split
    · exact ih _ (Memory.wf_putWord w h ‹_›)
    · exact h

theorem Memory.read_lt_low {low a : Nat} {m : Memory} (h : Memory.wfFrom low m = true) (ha : a < low) : m.read a = 0 := by
  induction m generalizing low with
  | nil => rfl
  | cons c m ih =>
    obtain ⟨b, v⟩ := c
    rw [Memory.wfFrom_cons] at h
    rw [Memory.read_cons, if_neg (by omega)]
    exact ih h.2.2.2 (by omega)

/-- Canonical memories with the same bytes are the same data. -/
theorem Memory.eq_of_read {low low' : Nat} {m m' : Memory} (h : Memory.wfFrom low m = true)
    (h' : Memory.wfFrom low' m' = true) (hr : ∀ a, m.read a = m'.read a) : m = m' := by
  induction m generalizing low low' m' with
  | nil =>
    cases m' with
    | nil => rfl
    | cons c' m' =>
      obtain ⟨b, w⟩ := c'
      have hb := hr b
      rw [Memory.wfFrom_cons] at h'
      simp [Memory.read_cons] at hb
      exact absurd hb.symm h'.2.2.1
  | cons c m ih =>
    obtain ⟨a, v⟩ := c
    rw [Memory.wfFrom_cons] at h
    cases m' with
    | nil =>
      have ha := hr a
      simp [Memory.read_cons] at ha
      exact absurd ha h.2.2.1
    | cons c' m' =>
      obtain ⟨b, w⟩ := c'
      rw [Memory.wfFrom_cons] at h'
      have ha := hr a
      have hb := hr b
      rw [Memory.read_cons, if_pos rfl, Memory.read_cons] at ha
      rw [Memory.read_cons, Memory.read_cons, if_pos rfl] at hb
      have hab : a = b := by
        by_contra hne
        rw [if_neg hne] at ha
        rw [if_neg (Ne.symm hne)] at hb
        rcases Nat.lt_or_gt_of_ne hne with hlt | hgt
        · exact h.2.2.1 (ha.trans (Memory.read_lt_low h'.2.2.2 (by omega)))
        · exact h'.2.2.1 (hb.symm.trans (Memory.read_lt_low h.2.2.2 (by omega)))
      subst hab
      rw [if_pos rfl] at ha
      subst ha
      congr 1
      refine ih h.2.2.2 h'.2.2.2 fun k => ?_
      by_cases hk : k = a
      · subst hk
        rw [Memory.read_lt_low h.2.2.2 (by omega), Memory.read_lt_low h'.2.2.2 (by omega)]
      · have := hr k
        rwa [Memory.read_cons, if_neg hk, Memory.read_cons, if_neg hk] at this

/-! ### The layout of an image -/

theorem read_putWord (m : Memory) (k a : Nat) (w : Word) :
    (putWord m k w).read a = if a = 2 * k then highByte w else if a = 2 * k + 1 then lowByte w else m.read a := by
  unfold putWord
  rw [Memory.read_write, Memory.read_write]
  split_ifs <;> first | rfl | omega

/-- A byte below the first slot of a layout is as it was. -/
theorem read_layoutFrom_below {k a : Nat} (ws : ProgramImage) (m : Memory) (h : a < 2 * k) :
    (layoutFrom k ws m).read a = m.read a := by
  induction ws generalizing k m with
  | nil => rfl
  | cons w ws ih =>
    unfold layoutFrom
    split
    · rw [ih _ (by omega), read_putWord, if_neg (by omega), if_neg (by omega)]
    · rfl

/-- A byte past the last slot of a layout is as it was. -/
theorem read_layoutFrom_above {k a : Nat} (ws : ProgramImage) (m : Memory) (h : 2 * (k + ws.length) ≤ a) :
    (layoutFrom k ws m).read a = m.read a := by
  induction ws generalizing k m with
  | nil => rfl
  | cons w ws ih =>
    simp only [List.length_cons] at h
    unfold layoutFrom
    split
    · rw [ih _ (by omega), read_putWord, if_neg (by omega), if_neg (by omega)]
    · rfl

/-- The two bytes of a slot that a layout fills are its word, high byte first. -/
theorem read_layoutFrom_word {k j : Nat} {w : Word} (ws : ProgramImage) (m : Memory) (h : ws[j]? = some w)
    (hj : k + j < 2048) :
    (layoutFrom k ws m).read (2 * (k + j)) = highByte w ∧ (layoutFrom k ws m).read (2 * (k + j) + 1) = lowByte w := by
  induction ws generalizing k j m with
  | nil => simp at h
  | cons v ws ih =>
    unfold layoutFrom
    rw [if_pos (show k < Config.nInstr by unfold Config.nInstr; omega)]
    cases j with
    | zero =>
      simp only [List.getElem?_cons_zero, Option.some.injEq] at h
      subst h
      rw [read_layoutFrom_below _ _ (by omega), read_layoutFrom_below _ _ (by omega), read_putWord, read_putWord]
      simp
    | succ j =>
      simp only [List.getElem?_cons_succ] at h
      have := ih (k := k + 1) (putWord m k v) h (by omega)
      rwa [show k + 1 + j = k + (j + 1) by omega] at this

/-- The words past slot 2047 are dropped. -/
theorem layoutFrom_take (k : Nat) (ws : ProgramImage) (m : Memory) :
    layoutFrom k (ws.take (2048 - k)) m = layoutFrom k ws m := by
  induction ws generalizing k m with
  | nil => simp [layoutFrom]
  | cons w ws ih =>
    by_cases hk : k < 2048
    · obtain ⟨j, hj⟩ : ∃ j, 2048 - k = j + 1 := ⟨2047 - k, by omega⟩
      rw [hj, List.take_succ_cons]
      unfold layoutFrom
      rw [if_pos (show k < Config.nInstr from hk), if_pos (show k < Config.nInstr from hk),
        ← ih (k + 1), show 2048 - (k + 1) = j by omega]
    · have h0 : 2048 - k = 0 := by omega
      rw [h0, List.take_zero]
      unfold layoutFrom
      rw [if_neg (show ¬ k < Config.nInstr from hk)]

end Sys2Proof.Machine
end

