-- ==== Sys2Proof/Laws/Ops.lean ====
section
/-! SUPPORT. What each shared operation can do, once: the next program counter, the end of a step, fetch, a byte store. -/

namespace Sys2Proof.Machine

/-- Advance in numbers (R44). -/
theorem nextPc_advance (p : SlotIndex) : (nextPc p .advance).toNat = (p.toNat + 1) % 2048 := by
  have := p.isLt
  show (if p.toNat + 1 > 2047 then BitVec.ofNat 11 0 else BitVec.ofNat 11 (p.toNat + 1)).toNat = _
  split
  · rw [BitVec.toNat_ofNat]; omega
  · rw [BitVec.toNat_ofNat]

/-- Jump in numbers (R45). -/
theorem nextPc_jump (p : SlotIndex) (t : Operand) :
    (nextPc p (.jump t)).toNat = if t.toNat > 2047 then 0 else t.toNat := by
  show (if t.toNat > 2047 then BitVec.ofNat 11 0 else BitVec.ofNat 11 t.toNat).toNat = _
  split
  · rw [BitVec.toNat_ofNat]
  · rw [BitVec.toNat_ofNat]; omega

/-- A step ends in one way: the state the handler left, with the program counter of the directive. -/
theorem complete_eq (s : State) (d : Directive) : complete s d = .next (s.setPc (nextPc s.pc d)) := rfl

/-- Fetch is the instruction at the program counter. -/
theorem State.fetch_eq (s : State) :
    s.fetch = decode (Memory.read s.mem (2 * s.pc.toNat)) (Memory.read s.mem (2 * s.pc.toNat + 1)) := rfl

/-- A slot's instruction depends on its two bytes alone. -/
theorem State.instrAt_congr {s t : State} {p : SlotIndex}
    (h0 : Memory.read s.mem (2 * p.toNat) = Memory.read t.mem (2 * p.toNat))
    (h1 : Memory.read s.mem (2 * p.toNat + 1) = Memory.read t.mem (2 * p.toNat + 1)) : s.instrAt p = t.instrAt p := by
  unfold State.instrAt slotAddr; rw [h0, h1]

/-- Where memory is the same, so is every slot. -/
theorem State.instrAt_of_mem {s t : State} (h : s.mem = t.mem) (p : SlotIndex) : s.instrAt p = t.instrAt p := by
  unfold State.instrAt; rw [h]

theorem State.instrAt_opcode_toNat (s : State) (p : SlotIndex) :
    (s.instrAt p).opcode.toNat = (Memory.read s.mem (2 * p.toNat)).toNat / 16 := by
  unfold State.instrAt slotAddr; rw [decode_opcode, opcodeField_toNat]

theorem State.instrAt_operand_toNat (s : State) (p : SlotIndex) :
    (s.instrAt p).operand.toNat =
      (Memory.read s.mem (2 * p.toNat)).toNat % 16 * 256 + (Memory.read s.mem (2 * p.toNat + 1)).toNat := by
  unfold State.instrAt slotAddr; rw [decode_operand, operandField_toNat]

/-- Reading a byte of the state a store leaves. -/
theorem State.read_writeByte (s : State) (x : Operand) (v : Byte) (a : Nat) :
    Memory.read (s.writeByte x v).mem a = if a = x.toNat then v else Memory.read s.mem a := by
  rw [State.writeByte_mem, Memory.read_write]; rfl

/-- A store keeps the canonical form (20_memory.md R24: every operand is an address). -/
theorem State.wf_writeByte {s : State} (x : Operand) (v : Byte) (h : Memory.wf s.mem = true) :
    Memory.wf (s.writeByte x v).mem = true := Memory.wf_write v h (addr12_lt x)

end Sys2Proof.Machine
end

