-- ==== Sys2Proof/Laws/PerInstr.lean ====
section
/-! SUPPORT. The families of statements made for every instruction, one lemma per constructor. -/

namespace Sys2Proof.Laws.FieldLayout

/-- The layout of an instruction's word (spec/30_encoding.md R31, R34): it is well formed, its opcode number stands in bits
15 to 12, its operand in bits 11 to 0, and its opcode has a mnemonic. -/
def Statement (i : Instr) : Prop :=
  i.wellFormed = true ∧ (encode i).toNat / 4096 = i.opcode.toNat ∧ (encode i).toNat % 4096 = i.operand.toNat ∧
    Machine.mnemonicOf i.opcode ≠ []

/-- The layout does not depend on which instruction it is. -/
theorem of_fields (i : Instr) (hw : i.wellFormed = true) : Statement i := by
  have ho := i.opcode.isLt
  have hx := i.operand.isLt
  have hm : ∀ op : Opcode, Machine.mnemonicOf op ≠ [] := by decide
  refine ⟨hw, ?_, ?_, hm _⟩ <;> rw [encode_toNat] <;> omega

theorem address_ok (x : Operand) : decide (x.toNat < Config.memBytes) = true := decide_eq_true x.isLt

theorem index_ok (x : Operand) : decide (x.toNat ≤ Config.operandMax) = true :=
  decide_eq_true (Nat.le_of_lt_succ x.isLt)

theorem noop (x : Operand) : Statement (.noop x) := of_fields _ rfl
theorem set (x : Operand) : Statement (.set x) := of_fields _ rfl
theorem load (x : Operand) : Statement (.load x) := of_fields _ (address_ok x)
theorem save (x : Operand) : Statement (.save x) := of_fields _ (address_ok x)
theorem add (x : Operand) : Statement (.add x) := of_fields _ rfl
theorem sub (x : Operand) : Statement (.sub x) := of_fields _ rfl
theorem addMem (x : Operand) : Statement (.addMem x) := of_fields _ (address_ok x)
theorem subMem (x : Operand) : Statement (.subMem x) := of_fields _ (address_ok x)
theorem inc (x : Operand) : Statement (.inc x) := of_fields _ (address_ok x)
theorem dec (x : Operand) : Statement (.dec x) := of_fields _ (address_ok x)
theorem jmpInz (x : Operand) : Statement (.jmpInz x) := of_fields _ (index_ok x)
theorem jmpIz (x : Operand) : Statement (.jmpIz x) := of_fields _ (index_ok x)
theorem jmpIc (x : Operand) : Statement (.jmpIc x) := of_fields _ (index_ok x)
theorem jmp (x : Operand) : Statement (.jmp x) := of_fields _ (index_ok x)
theorem wext (x : Operand) : Statement (.wext x) := of_fields _ rfl
theorem rext (x : Operand) : Statement (.rext x) := of_fields _ rfl

end Sys2Proof.Laws.FieldLayout
end

