-- ==== Sys2Proof/Laws/Step.lean ====
section
/-! SUPPORT. What exec and a run can do, once: exec in terms of the shared operations, and the induction over a run. -/

namespace Sys2Proof.Machine

/-- The state a handler leaves before the program counter is resolved (40_step_cycle.md R40 action 2). -/
def handled (i : Instr) (s : State) : State :=
  match i with
  | .noop _ | .wext _ | .rext _ | .jmpInz _ | .jmpIz _ | .jmp _ => s
  | .set x => s.setAcc (imm8 x)
  | .load x => s.setAcc (s.readByte x)
  | .save x => s.writeByte x s.acc
  | .add x => s.setResult (aluAdd s.acc.toNat (immValue immRule x))
  | .sub x => s.setResult (aluSub s.acc.toNat (immValue immRule x))
  | .addMem x => s.setResult (add8 s.acc (s.readByte x))
  | .subMem x => s.setResult (sub8 s.acc (s.readByte x))
  | .inc x => s.writeResult x (add8 (s.readByte x) 1)
  | .dec x => s.writeResult x (sub8 (s.readByte x) 1)
  | .jmpIc _ => s.setCarry false

/-- The directive a handler returns (R43). -/
def directive (i : Instr) (s : State) : Directive :=
  match i with
  | .noop _ | .wext _ | .rext _ | .set _ | .load _ | .save _ => .advance
  | .add _ | .sub _ | .addMem _ | .subMem _ | .inc _ | .dec _ => .advance
  | .jmpInz x => jumpIf (decide (s.acc ≠ 0)) x
  | .jmpIz x => jumpIf (decide (s.acc = 0)) x
  | .jmpIc x => jumpIf s.carry x
  | .jmp x => .jump x

/-- The inversion of exec: it answers the handler's state with the directive's program counter, always. A jmp_ic not
taken found the flag clear, so clearing it changes nothing. -/
theorem exec_eq (i : Instr) (s : State) :
    exec i s = .next ((handled i s).setPc (nextPc s.pc (directive i s))) := by
  cases i
  case jmpIc x =>
    obtain ⟨pc, acc, carry, running, mem, base, last⟩ := s
    cases carry <;> rfl
  all_goals rfl

/-- What no handler writes (R40). -/
theorem handled_host (i : Instr) (s : State) : HostAgree s (handled i s) := by
  cases i <;> exact ⟨rfl, rfl, rfl⟩

/-- Memory after a storing instruction, by `Stores`: the stored byte at its address, every other byte as before. -/
theorem handled_stores {i : Instr} {s : State} {a b : Nat} (h : Claims.Stores i s a b) (k : Nat) :
    (Memory.read (handled i s).mem k).toNat = if k = a then b else (Memory.read s.mem k).toNat := by
  have r (x : Operand) (v : Byte) : (Memory.read (s.writeByte x v).mem k).toNat =
      if k = x.toNat then v.toNat else (Memory.read s.mem k).toNat :=
    (congrArg BitVec.toNat (State.read_writeByte s x v k)).trans (apply_ite _ _ _ _)
  cases i <;> simp only [Claims.Stores] at h <;> obtain ⟨rfl, rfl⟩ := h <;> refine (r _ _).trans ?_
  case save => rfl
  case inc x => exact congrArg (ite _ · _) (aluAdd_toNat _ 1)
  case dec x => exact congrArg (ite _ · _) (aluSub_toNat_of_le _ 1 (by decide))

/-- A run of one step more begins with a step. -/
theorem run_succ (n : Nat) (s : State) :
    core.run (n + 1) s = core.run n ((handled s.fetch s).setPc (nextPc s.pc (directive s.fetch s))) := by
  have h : core.step s = .next ((handled s.fetch s).setPc (nextPc s.pc (directive s.fetch s))) := exec_eq s.fetch s
  exact (Host.Core.run.eq_2 core s n).trans (by rw [h])

/-- A run goes on from the state its first part ends in. -/
theorem run_add (n k : Nat) (s t : State) (h : core.run n s = .next t) : core.run (n + k) s = core.run k t := by
  induction n generalizing s with
  | zero => cases h; rw [Nat.zero_add]
  | succ n ih => rw [run_succ] at h; rw [show n + 1 + k = (n + k) + 1 by omega, run_succ]; exact ih _ h

/-- The induction over a run: what every step keeps, every run keeps. -/
theorem run_keeps {P : State → Prop} (hstep : ∀ s, P s → P ((handled s.fetch s).setPc (nextPc s.pc (directive s.fetch s))))
    (n : Nat) (s : State) (h : P s) : Ends (core.run n s) P := by
  induction n generalizing s with
  | zero => exact ⟨s, rfl, h⟩
  | succ n ih => rw [run_succ]; exact ih _ (hstep s h)

end Sys2Proof.Machine
end

