-- ==== Sys2Proof/Tests/Slice0.lean ====
section
/-! SUPPORT. The model's own tests. Expected results are the vectors of spec/95_test_vectors.md, the worked examples of
the spec's files, or a reading of the encoding rules; none is the model's own answer. The theorems named witness_… show
for each statement with hypotheses a state and operands that meet them all, clause by clause. -/

namespace Sys2Proof.Tests

open Sys2Proof.Machine Sys2Proof.Claims

/-! ### Well-formedness: an ill-formed term for each check (R37) -/

theorem test_opcode_sixteen_refused : EncodeArgs.opcodeOk ⟨16, 0⟩ = false := by decide
theorem test_argument_65536_refused : EncodeArgs.argumentOk ⟨0, 65536⟩ = false := by decide
theorem test_ill_formed_args_refused :
    EncodeArgs.wellFormed ⟨16, 0⟩ = false ∧ EncodeArgs.wellFormed ⟨0, 65536⟩ = false ∧
    EncodeArgs.wellFormed ⟨15, 65535⟩ = true := by decide
theorem test_wide_operands_well_formed :
    (Instr.jmp 4095).wellFormed = true ∧ (Instr.load 4095).wellFormed = true ∧ (Instr.noop 4095).wellFormed = true := by
  decide
theorem test_memory_form :
    Memory.wf [(0, 1), (4095, 2)] = true ∧ Memory.wf [(4096, 1)] = false ∧ Memory.wf [(2, 1), (2, 3)] = false ∧
    Memory.wf [(5, 1), (3, 1)] = false ∧ Memory.wf [(5, 0)] = false := by decide

/-! ### Decoding: one word per constructor, written out bit by bit from R31 and R34 -/

theorem test_decode_noop : decodeTableWord 16 0b0000111111111111 = some (.noop 4095) := by decide
theorem test_decode_set : decodeTableWord 16 0b0001000000000111 = some (.set 7) := by decide
theorem test_decode_load : decodeTableWord 16 0b0010000000101010 = some (.load 42) := by decide
theorem test_decode_save : decodeTableWord 16 0b0011000000101000 = some (.save 40) := by decide
theorem test_decode_add : decodeTableWord 16 0b0100011000000000 = some (.add 1536) := by decide
theorem test_decode_sub : decodeTableWord 16 0b0101000011001000 = some (.sub 200) := by decide
theorem test_decode_addMem : decodeTableWord 16 0b0110000100101100 = some (.addMem 300) := by decide
theorem test_decode_subMem : decodeTableWord 16 0b0111000001100100 = some (.subMem 100) := by decide
theorem test_decode_inc : decodeTableWord 16 0b1000000000010011 = some (.inc 19) := by decide
theorem test_decode_dec : decodeTableWord 16 0b1001000000101001 = some (.dec 41) := by decide
theorem test_decode_jmpInz : decodeTableWord 16 0b1010000000000100 = some (.jmpInz 4) := by decide
theorem test_decode_jmpIz : decodeTableWord 16 0b1011101110111000 = some (.jmpIz 3000) := by decide
theorem test_decode_jmpIc : decodeTableWord 16 0b1100000000000010 = some (.jmpIc 2) := by decide
theorem test_decode_jmp : decodeTableWord 16 0b1101000000001100 = some (.jmp 12) := by decide
theorem test_decode_wext : decodeTableWord 16 0b1110000100100011 = some (.wext 291) := by decide
theorem test_decode_rext : decodeTableWord 16 0b1111111111111111 = some (.rext 4095) := by decide

/-! ### Instructions: the vectors of 95_test_vectors.md Part B, one step each -/

/-- A state with the given registers and bytes and an instruction word in the slot at pc. -/
def vector (pc acc : Nat) (carry : Bool) (w : Nat) (bytes : List (Nat × Nat)) : State :=
  let s : State := (State.reset.setPc (BitVec.ofNat 11 pc)).setAcc (BitVec.ofNat 8 acc)
  let s := (s.setCarry carry).setMem (bytes.foldl (fun m c => Memory.write m c.1 (BitVec.ofNat 8 c.2)) [])
  s.withFetchWord 16 w

/-- The registers and some bytes a step leaves. -/
def after (o : Host.Outcome State Fault Refusal) (addresses : List Nat) : Option (Nat × Nat × Bool × List Nat) :=
  match o with
  | .next t => some (t.pc.toNat, t.acc.toNat, t.carry, addresses.map fun a => (Memory.read t.mem a).toNat)
  | .fault _ => none
  | .refused _ => none

theorem test_noop_ignores_operand : after (step (vector 3 42 false 0x0FFF [])) [] = some (4, 42, false, []) := by decide
theorem test_noop_wraps : after (step (vector 2047 1 true 0x0000 [])) [] = some (0, 1, true, []) := by decide
theorem test_wext_no_effect :
    after (step (vector 9 200 false 0xE123 [(291, 17)])) [291] = some (10, 200, false, [17]) := by decide
theorem test_rext_no_effect : after (step (vector 2046 5 true 0xFFFF [])) [] = some (2047, 5, true, []) := by decide
theorem test_set_low8 : after (step (vector 1 99 false 0x1107 [])) [] = some (2, 7, false, []) := by decide
theorem test_set_keeps_carry : after (step (vector 1 0 true 0x10FF [])) [] = some (2, 255, true, []) := by decide
theorem test_load_last_byte :
    after (step (vector 4 1 false 0x2FFF [(4095, 200)])) [4095] = some (5, 200, false, [200]) := by decide
theorem test_load_own_first_byte : after (step (vector 4 0 false 0x2008 [])) [8] = some (5, 32, false, [32]) := by decide
theorem test_save_keeps_carry : after (step (vector 1 7 true 0x3028 [])) [40] = some (2, 7, true, [7]) := by decide
theorem test_save_own_slot :
    after (step (vector 1 208 false 0x3002 [])) [2, 3] = some (2, 208, false, [208, 2]) := by decide
theorem test_add_carries_at_256 : after (step (vector 2 128 false 0x4080 [])) [] = some (3, 0, true, []) := by decide
theorem test_add_low8_clears_carry : after (step (vector 2 10 true 0x4100 [])) [] = some (3, 10, false, []) := by decide
theorem test_sub_borrows : after (step (vector 2 100 false 0x50C8 [])) [] = some (3, 156, true, []) := by decide
theorem test_sub_zero_no_borrow : after (step (vector 2 5 true 0x5005 [])) [] = some (3, 0, false, []) := by decide
theorem test_addMem_own_byte : after (step (vector 5 1 false 0x600B [])) [] = some (6, 12, false, []) := by decide
theorem test_addMem_carries :
    after (step (vector 5 255 false 0x6FFF [(4095, 255)])) [4095] = some (6, 254, true, [255]) := by decide
theorem test_subMem_order :
    after (step (vector 5 3 false 0x7064 [(100, 9)])) [100] = some (6, 250, true, [9]) := by decide
theorem test_subMem_equal : after (step (vector 5 3 true 0x7064 [(100, 3)])) [] = some (6, 0, false, []) := by decide
theorem test_inc_wraps : after (step (vector 7 9 false 0x8029 [(41, 255)])) [41] = some (8, 9, true, [0]) := by decide
theorem test_inc_own_operand :
    after (step (vector 7 0 false 0x800F [])) [14, 15, 16] = some (8, 0, false, [128, 16, 0]) := by decide
theorem test_dec_to_zero_not_flagged :
    after (step (vector 7 5 true 0x9029 [(41, 1)])) [41] = some (8, 5, false, [0]) := by decide
theorem test_dec_wraps : after (step (vector 7 5 false 0x9029 [])) [41] = some (8, 5, true, [255]) := by decide
theorem test_jmpInz_taken : after (step (vector 9 255 true 0xA004 [])) [] = some (4, 255, true, []) := by decide
theorem test_jmpInz_not_taken_wraps : after (step (vector 2047 0 false 0xA004 [])) [] = some (0, 0, false, []) := by decide
theorem test_jmpIz_above_2047 : after (step (vector 3 0 false 0xBBB8 [])) [] = some (0, 0, false, []) := by decide
theorem test_jmpIz_not_taken : after (step (vector 3 1 true 0xB064 [])) [] = some (4, 1, true, []) := by decide
theorem test_jmpIc_clears : after (step (vector 7 77 true 0xCBB8 [])) [] = some (0, 77, false, []) := by decide
theorem test_jmpIc_not_taken : after (step (vector 7 0 false 0xC002 [])) [] = some (8, 0, false, []) := by decide
theorem test_jmp_2049_goes_to_0 : after (step (vector 5 0 true 0xD801 [])) [] = some (0, 0, true, []) := by decide
theorem test_jmp_2047 : after (step (vector 5 0 false 0xD7FF [])) [] = some (2047, 0, false, []) := by decide

/-! ### The Assembler: the worked examples of 46_assembler.md -/

/-- A compiled text as numbers. -/
def words (t : String) : Option (List Nat) :=
  match compile t.toList with
  | .ok image => some (image.map BitVec.toNat)
  | .err _ => none

theorem test_asm_source_examples :
    words "set 7" = some [0x1007] ∧ words "jmp 12" = some [0xD00C] ∧ words "dec 41" = some [0x9029] ∧
    words "frobnicate 5\nset 3" = some [0x1003] := by decide
theorem test_asm_malformed :
    compile "set\nsave 40".toList = .err .malformedLine ∧ compile "noop".toList = .err .malformedLine ∧
    compile "set\t7".toList = .err .malformedLine ∧ compile "frobnicate".toList = .err .malformedLine := by decide
theorem test_asm_invalid_blanks :
    compile "set ".toList = .err .invalidArgument ∧ compile " set 7".toList = .err .invalidArgument ∧
    compile "   ".toList = .err .invalidArgument ∧ compile " # note".toList = .err .invalidArgument := by decide
theorem test_asm_invalid_numerals :
    compile "set 0x10".toList = .err .invalidArgument ∧ compile "set -1".toList = .err .invalidArgument ∧
    compile "set +1".toList = .err .invalidArgument ∧ compile "load 65536".toList = .err .invalidArgument := by decide
theorem test_asm_first_fault :
    compile "set x\nsave".toList = .err .invalidArgument ∧ compile "frobnicate x".toList = .err .invalidArgument := by decide
theorem test_asm_empty_images :
    words "" = some [] ∧ words "# only a comment\n\n" = some [] ∧ words " 5" = some [] ∧ words "SET 7" = some [] := by decide
theorem test_asm_spacing :
    words "set  7" = some [0x1007] ∧ words "set 7 " = some [0x1007] ∧ words "set 007" = some [0x1007] ∧
    words "set 7\r\nsave 40\r\n" = some [0x1007, 0x3028] := by decide
theorem test_asm_truncation :
    words "set 4095" = some [0x1FFF] ∧ words "set 4096" = some [0x1000] ∧ words "jmp 4097" = some [0xD001] ∧
    words "load 65535" = some [0x2FFF] := by decide
theorem test_asm_skipped_line_moves_indexes : words "set 1\nbogus 2\njmp 1" = some [0x1001, 0xD001] := by decide
theorem test_asm_reject_wide :
    compileWith true "set 4096".toList = .err .invalidArgument ∧ compileWith true "set 4095".toList = .ok [0x1FFF] := by
  decide

/-! ### The commands: 95_test_vectors.md B7 and B8 -/

/-- The state commands leave: pc, acc, carry and running as numbers, then bytes 0 to 3 of M and of B. -/
def driven (cs : List Command) (s : State) : Option (List Nat) :=
  match commands cs s with
  | .next (t, _) => some ([t.pc.toNat, t.acc.toNat, t.carry.toNat, t.running.toNat] ++
      ([0, 1, 2, 3].map fun a => (Memory.read t.mem a).toNat) ++ [0, 1, 2, 3].map fun a => (Memory.read t.base a).toNat)
  | .fault _ => none
  | .refused _ => none

theorem test_install_is_not_load :
    driven [.step, .tick, .install [0x10C8, 0x4064], .step] State.creation =
      some [2, 0, 0, 0, 0, 0, 0, 0, 0x10, 0xC8, 0x40, 0x64] := by decide
theorem test_run_after_reset :
    driven [.install [0x10C8, 0x4064], .reset, .setRunning true, .tick, .tick] State.creation =
      some [2, 44, 1, 1, 0x10, 0xC8, 0x40, 0x64, 0x10, 0xC8, 0x40, 0x64] := by decide
theorem test_second_install_is_fresh :
    driven [.install [0x10C8, 0x4064], .reset, .install [0x9029]] State.creation =
      some [0, 0, 0, 0, 0x10, 0xC8, 0x40, 0x64, 0x90, 0x29, 0, 0] := by decide
theorem test_install_keep :
    layoutFrom 0 [0x9029] (installGround .keep [(2, 0x40), (3, 0x64)]) = [(0, 0x90), (1, 0x29), (2, 0x40), (3, 0x64)] := by
  decide
theorem test_reset_stops_ticks :
    driven [.install [0x9029], .setRunning true, .reset, .tick] State.creation =
      some [0, 0, 0, 0, 0x90, 0x29, 0, 0, 0x90, 0x29, 0, 0] := by decide

/-- The reports of commands. -/
def reports (cs : List Command) : Option (List Response) :=
  match commands cs State.creation with
  | .next (_, rs) => some rs
  | .fault _ => none
  | .refused _ => none

theorem test_compile_trigger :
    reports [.compileIfChanged "set 7".toList, .compileIfChanged "set 7".toList, .compileIfChanged "set".toList,
        .compileIfChanged "set".toList, .compileIfChanged "set 7".toList] =
      some [.compiled (.ok [0x1007]), .noChange, .compiled (.err .malformedLine), .noChange, .compiled (.ok [0x1007])] := by
  decide
theorem test_reset_is_reset_of_creation : State.creation.doReset = State.reset := by decide

/-! ### Witnesses -/

theorem witness_StepRunsFetchedInstruction :
    Memory.read (vector 2047 0 false 0xD7FF []).mem (2 * 2047) = 0xD7 ∧
    Memory.read (vector 2047 0 false 0xD7FF []).mem (2 * 2047 + 1) = 0xFF ∧
    (vector 2047 0 false 0xD7FF []).pc.toNat = 2047 ∧ decodeBytes [0xD7, 0xFF] = .ok (.jmp 2047, []) := by decide

theorem witness_DecodeFieldsAndInverse :
    encodeBytes (.wext 291) = [0xE1, 0x23] ∧ (0xE123 : Word) = (0xE1 : Byte) ++ (0x23 : Byte) := by decide

theorem witness_EncodeFormula : 15 < 16 ∧ 65535 ≤ 65535 := by decide

/-- R31: the word of `jmp 12`, and the largest operand a form has. -/
theorem witness_HasEncoding_and_HasForm : decodeWord 0xD00C = .jmp 12 ∧ 4095 ≤ 4095 := by decide

theorem witness_JmpIcTestsAndClearsCarry :
    (vector 7 0 true 0xC002 []).carry = true ∧ (vector 7 0 false 0xC002 []).carry = false := by decide

theorem witness_NextProgramCounter :
    takenTarget (.jmpInz 4) (vector 9 0 false 0 []) = none ∧ takenTarget (.jmpInz 4) (vector 9 1 false 0 []) = some 4 ∧
    takenTarget (.jmpIz 2047) (vector 9 0 false 0 []) = some 2047 ∧ takenTarget (.jmpIc 2048) (vector 9 0 true 0 []) = some 2048 ∧
    takenTarget (.jmp 4095) (vector 9 0 false 0 []) = some 4095 ∧ takenTarget (.set 4) (vector 9 0 false 0 []) = none := by
  decide

theorem witness_MemoryFrame :
    storeAddr (.save 41) ≠ some 42 ∧ storeAddr (.inc 4095) ≠ some 4094 ∧ storeAddr (.dec 0) ≠ some 1 ∧
    storeAddr (.load 41) ≠ some 41 := by decide

theorem witness_AccumulatorFrame : writesAcc (.save 0) = false ∧ writesAcc (.inc 4095) = false := by decide

theorem witness_CarryFrame :
    isArithmetic (.set 5) = false ∧ isJmpIc (.set 5) = false ∧
    isArithmetic (.jmpIc 5) = false ∧ (vector 0 0 false 0 []).carry = false := by decide

theorem witness_CarryNeverStale : isArithmetic (.dec 0) = true ∧ isArithmetic (.addMem 4095) = true := by decide

theorem witness_ImmediateReadingsDifferOnlyInCarry : (255#12).toNat ≤ 255 ∧ (256#12).toNat > 255 := by decide

theorem witness_IgnoredOperandBitsHaveNoEffect : (0x107#12).toNat % 256 = (0xF07#12).toNat % 256 := by decide

theorem witness_StepIgnoresHostState :
    EngineAgree (vector 5 9 true 0x4001 []) (((vector 5 9 true 0x4001 []).setRunning true).setBase [(0, 1)]) :=
  ⟨rfl, rfl, rfl, rfl⟩

theorem witness_StepReadsOneDataByte :
    (vector 5 9 true 0x6028 [(40, 7), (50, 1)]).fetch = .addMem 40 ∧
    (vector 5 9 true 0x6028 [(40, 7), (50, 1)]).mem ≠ (vector 5 9 true 0x6028 [(40, 7)]).mem ∧
    (vector 5 9 true 0x6028 [(40, 7), (50, 1)]).pc = (vector 5 9 true 0x6028 [(40, 7)]).pc ∧
    (vector 5 9 true 0x6028 [(40, 7), (50, 1)]).acc = (vector 5 9 true 0x6028 [(40, 7)]).acc ∧
    (vector 5 9 true 0x6028 [(40, 7), (50, 1)]).carry = (vector 5 9 true 0x6028 [(40, 7)]).carry ∧
    ∀ a ∈ [10, 11, 40], Memory.read (vector 5 9 true 0x6028 [(40, 7), (50, 1)]).mem a =
      Memory.read (vector 5 9 true 0x6028 [(40, 7)]).mem a := by decide

theorem witness_StoreRewritesInstructionSlot :
    Stores (.save 4094) (vector 5 9 true 0 []) 4094 9 ∧ Stores (.inc 4095) (vector 5 9 true 0 [(4095, 255)]) 4095 0 ∧
    Stores (.dec 0) (vector 5 9 true 0 []) 0 255 ∧
    4094 = 2 * (2047#11).toNat ∧ 4095 = 2 * (2047#11).toNat + 1 ∧ 4095 / 2 ≠ (2046#11).toNat ∧ 0 = 2 * (0#11).toNat := by
  unfold Stores; decide

theorem witness_SelfJumpStaysPut :
    (vector 2047 9 true 0xD7FF []).fetch = .jmp 2047 ∧ (2047#12).toNat = (vector 2047 9 true 0xD7FF []).pc.toNat := by
  decide

/-- The jump to itself at 5 is reached for the first time after one step, from the jump at 4. -/
theorem witness_FirstArrivalAtSelfJumpIsFinal :
    AtFirstArrival 5 (vector 4 9 true 0xD005 [(10, 0xD0), (11, 5)])
      (fun t => t.fetch = .jmp (BitVec.setWidth 12 5#11) ∧ t.acc = 9) :=
  ⟨1, ⟨by decide, ⟨_, rfl, by decide⟩, fun k h0 h1 => by omega⟩, ⟨_, rfl, by decide, by decide⟩⟩

theorem witness_ZeroMemoryWalksProgramCounter : ∀ a, Memory.read State.reset.mem a = 0 := fun _ => rfl

theorem witness_StepKeepsCanonicalMemory : (vector 5 9 true 0x8029 [(41, 255), (4095, 1)]).wf = true := by decide

theorem witness_CommandsKeepCanonicalMemory : (vector 5 9 true 0x3FFF [(4095, 1)]).wf = true := by decide

theorem witness_ResetCopiesBaseline : 4095 < 4096 := by decide

/-- The first and the last word of an image of two, and the first byte past it. -/
theorem witness_InstallLaysOutImage :
    ([0x10C8, 0x4064] : ProgramImage)[0]? = some 0x10C8 ∧ ([0x10C8, 0x4064] : ProgramImage)[1]? = some 0x4064 ∧
    2 * ([0x10C8, 0x4064] : ProgramImage).length ≤ 4 ∧ 2047 < 2048 := by decide

theorem witness_TickHonoursRunning :
    (State.reset.setRunning true).running = true ∧ State.reset.running = false := by decide

theorem witness_ReadReturnsSurface : 4095 < 4096 := by decide

theorem witness_CompileSignalsOnce :
    State.reset.lastSource ≠ some "set 7".toList ∧
    (State.reset.setLastSource (some "set 7".toList)).lastSource = some "set 7".toList := by decide

theorem witness_FailedCompileKeepsProgram :
    compile "set".toList = .err .malformedLine ∧
    (State.reset.setLastSource (some "set 7".toList)).lastSource = some "set 7".toList := by decide

theorem witness_BootLoadsProgram :
    State.reset.lastSource ≠ some "set 7\njmp 1".toList ∧ compile "set 7\njmp 1".toList = .ok [0x1007, 0xD001] ∧
    ([0x1007, 0xD001] : ProgramImage)[(1#11).toNat]? = some 0xD001 ∧ 2 * ([0x1007, 0xD001] : ProgramImage).length ≤ 4 := by
  decide

/-- A line with no space, and one whose argument is no numeral, each after an accepted comment. -/
theorem witness_FirstFaultyLineDecides :
    lines "# a\nset".toList = ["# a".toList] ++ "set".toList :: [] ∧
    lines "# a\nset ".toList = ["# a".toList] ++ "set ".toList :: [] ∧
    AcceptedLine "# a".toList ∧ ¬ AcceptedLine "set".toList ∧ ¬ AcceptedLine "set ".toList ∧
    ' ' ∉ "set".toList ∧ ' ' ∈ "set ".toList := by
  refine ⟨by decide, by decide, fun h => absurd rfl h.2, fun h => ?_, fun h => ?_, by decide, by decide⟩
  · obtain ⟨m, b, d, e, he, -⟩ := h ⟨by decide, by decide⟩
    have hm : ' ' ∈ "set".toList := by rw [he]; simp
    exact absurd hm (by decide)
  · obtain ⟨m, b, d, e, he, hm, -, hd, -⟩ := h ⟨by decide, by decide⟩
    have hlen := congrArg List.length he
    simp only [List.length_append, List.length_cons] at hlen
    have hpos : 0 < d.length := List.length_pos_of_ne_nil hd.1
    have htake := congrArg (List.take 3) he
    have hset : m.length ≤ 2 := by
      have : ("set ".toList).length = 4 := by decide
      omega
    have hin : ' ' ∈ List.take 3 (m ++ ' ' :: (b ++ d ++ e)) := by
      rw [List.mem_take_iff_getElem]
      exact ⟨m.length, by simp; omega, by simp⟩
    rw [← htake] at hin
    exact absurd hin (by decide)

/-- Blanks of each kind round the smallest and the largest numeral. -/
theorem witness_InstructionLineEmitsWord :
    ("rext", 15) ∈ mnemonics ∧ Blank [' ', '\t'] ∧ Numeral "65535".toList ∧ Numeral "0".toList ∧ Blank ['\x0B', '\x0C', '\r'] := by
  refine ⟨by decide, by simp [Blank], ⟨by decide, by simp, by simp [numeralValue]⟩,
    ⟨by decide, by simp, by simp [numeralValue]⟩, by simp [Blank]⟩

theorem witness_UnknownMnemonicIsSkipped :
    (∀ e ∈ mnemonics, "SET".toList ≠ e.1.toList) ∧ ' ' ∉ "SET".toList ∧ '\n' ∉ "SET".toList ∧
    (∀ e ∈ mnemonics, ([] : Text) ≠ e.1.toList) := by decide

end Sys2Proof.Tests
end

namespace Sys2Proof.Machine

/-- Settles O31. A run is safe when every step keeps the trivial property: the induction over a run (`run_keeps`) rests
on `exec_eq`, by which each of the sixteen instructions answers a next state and none a fault or a refusal (R5). -/
theorem everyRunIsSafe : Obligations.EveryRunIsSafe := by
  intro n s
  exact run_keeps (P := fun _ => True) (fun _ h => h) n s trivial

end Sys2Proof.Machine

namespace Sys2Proof.Machine

open Sys2Proof.Claims

/-! ### What a handler writes (10_state.md R11, R13, R14) -/

/-- Memory after a handler: one byte written at the instruction's store address, or, where it has none, memory as it was. -/
theorem handled_mem_cases (i : Instr) (s : State) :
    (storeAddr i = none ∧ (handled i s).mem = s.mem) ∨
    ∃ (x : Operand) (v : Byte),
      storeAddr i = some (addr12 x) ∧ (handled i s).mem = Memory.write s.mem (addr12 x) v := by
  cases i
  case save | inc | dec => exact .inr ⟨_, _, rfl, rfl⟩
  all_goals exact .inl ⟨rfl, rfl⟩

/-- Reading memory after a handler, away from the store address. -/
theorem read_handled_other {i : Instr} {a : Nat} (s : State) (h : storeAddr i ≠ some a) :
    Memory.read (handled i s).mem a = Memory.read s.mem a := by
  obtain ⟨-, hmem⟩ | ⟨x, v, haddr, hmem⟩ := handled_mem_cases i s
  · rw [hmem]
  · have hne : a ≠ addr12 x := fun hax => h (hax ▸ haddr)
    rw [hmem, Memory.read_write_other _ hne]

theorem handled_acc {i : Instr} (s : State) (h : writesAcc i = false) : (handled i s).acc = s.acc := by
  cases i
  case set | load | add | sub | addMem | subMem => cases h
  all_goals rfl

/-- The flag after a handler that is not arithmetic; jmp_ic clears it, which is no change where it is clear. -/
theorem handled_carry {i : Instr} {s : State} (ha : isArithmetic i = false) (hj : isJmpIc i = false ∨ s.carry = false) :
    (handled i s).carry = s.carry := by
  cases i
  case add | sub | addMem | subMem | inc | dec => cases ha
  case jmpIc =>
    have hclear : s.carry = false := hj.resolve_left Bool.noConfusion
    exact hclear.symm
  all_goals rfl

/-- An arithmetic handler overwrites the flag and does not read it. -/
theorem handled_setCarry {i : Instr} (s : State) (c : Bool) (h : isArithmetic i = true) :
    handled i (s.setCarry c) = handled i s := by
  cases i
  case add | sub | addMem | subMem | inc | dec => rfl
  all_goals cases h

theorem directive_of_isArithmetic {i : Instr} (s : State) (h : isArithmetic i = true) : directive i s = .advance := by
  cases i
  case add | sub | addMem | subMem | inc | dec => rfl
  all_goals cases h

theorem HostAgree.refl (s : State) : HostAgree s s := ⟨rfl, rfl, rfl⟩

theorem HostAgree.trans {s t u : State} (hst : HostAgree s t) (htu : HostAgree t u) : HostAgree s u := by
  obtain ⟨hrunning, hbase, hlast⟩ := hst
  obtain ⟨hrunning', hbase', hlast'⟩ := htu
  exact ⟨hrunning.trans hrunning', hbase.trans hbase', hlast.trans hlast'⟩

/-! ### The canonical form of both arrays (log entry 4) -/

theorem State.wf_iff (s : State) : s.wf = true ↔ Memory.wf s.mem = true ∧ Memory.wf s.base = true := by
  rw [State.wf, Bool.and_eq_true]

/-- Both arrays decide the form: a state with arrays of the form has it, whatever its other fields hold. -/
theorem State.wf_of_arrays {s t : State} (h : s.wf = true) (hmem : t.mem = s.mem) (hbase : t.base = s.base) :
    t.wf = true := by
  rwa [State.wf_iff, hmem, hbase, ← State.wf_iff]

/-- A handler stores in range (20_memory.md R24) and leaves the baseline image alone (R106). -/
theorem wf_handled (i : Instr) {s : State} (h : s.wf = true) : (handled i s).wf = true := by
  obtain ⟨hm, hb⟩ := (State.wf_iff s).mp h
  obtain ⟨-, hbase, -⟩ := handled_host i s
  refine (State.wf_iff _).mpr ⟨?_, hbase ▸ hb⟩
  obtain ⟨-, hmem⟩ | ⟨x, v, -, hmem⟩ := handled_mem_cases i s
  · rwa [hmem]
  · rw [hmem]; exact Memory.wf_write v hm (addr12_lt x)

theorem step_keeps_wf {s : State} (h : s.wf = true) : Ends (step s) (fun t => t.wf = true) :=
  ⟨_, exec_eq s.fetch s, State.wf_of_arrays (wf_handled s.fetch h) rfl rfl⟩

/-- Both grounds of an install are canonical, the fresh one and the baseline's own bytes (D4). -/
theorem wf_installGround (f : InstallFill) {m : Memory} (h : m.wf = true) : (installGround f m).wf = true := by
  cases f with
  | zero => exact Memory.wf_nil
  | keep => exact h

theorem State.wf_install {s : State} (image : ProgramImage) (h : s.wf = true) : (s.install image).wf = true := by
  obtain ⟨hm, hb⟩ := (State.wf_iff s).mp h
  exact (State.wf_iff _).mpr ⟨hm, Memory.wf_layoutFrom 0 image (wf_installGround installFill hb)⟩

/-- Reset copies the baseline image, and with it its form (R110). -/
theorem State.wf_doReset {s : State} (h : s.wf = true) : s.doReset.wf = true := by
  obtain ⟨-, hb⟩ := (State.wf_iff s).mp h
  exact (State.wf_iff _).mpr ⟨hb, hb⟩

theorem State.wf_compileIfChanged {s : State} (t : Text) (h : s.wf = true) : (s.compileIfChanged t).1.wf = true := by
  unfold State.compileIfChanged
  split
  · exact h
  · exact State.wf_of_arrays h rfl rfl

/-! ### Commands (R90) -/

/-- The empty report keeps what is known of the state a step ends in. -/
theorem ends_silently {o : Host.Outcome State Fault Refusal} {P : State → Prop} (h : Ends o P) :
    Ends (silently o) (fun r => P r.1) := by
  obtain ⟨t, rfl, ht⟩ := h
  exact ⟨(t, .silent), rfl, ht⟩

/-- TICK is a step while running is set, and nothing otherwise (R92). -/
theorem command_tick_running {s : State} (h : s.running = true) : command .tick s = silently (step s) := if_pos h

theorem command_tick_stopped {s : State} (h : s.running = false) : command .tick s = .next (s, .silent) :=
  if_neg (Bool.eq_false_iff.mp h)

theorem command_keeps_wf (c : Command) {s : State} (h : s.wf = true) : Ends (command c s) (fun r => r.1.wf = true) := by
  have hstep := ends_silently (step_keeps_wf h)
  cases c with
  | compileIfChanged t => exact ⟨_, rfl, State.wf_compileIfChanged t h⟩
  | install image => exact ⟨_, rfl, State.wf_install image h⟩
  | reset => exact ⟨_, rfl, State.wf_doReset h⟩
  | step => exact hstep
  | tick =>
    cases hrun : s.running with
    | true => exact command_tick_running hrun ▸ hstep
    | false => exact ⟨_, command_tick_stopped hrun, h⟩
  | setRunning v => exact ⟨_, rfl, State.wf_of_arrays h rfl rfl⟩
  | read => exact ⟨_, rfl, h⟩

/-- A sequence of commands, when its first one and the rest of them are answered. -/
theorem commands_cons {c : Command} {cs : List Command} {s t u : State} {r : Response} {rs : List Response}
    (hc : command c s = .next (t, r)) (hcs : commands cs t = .next (u, rs)) :
    commands (c :: cs) s = .next (u, r :: rs) := by
  simp only [commands, hc, hcs]

/-- The induction over a sequence of commands: what every command keeps, every sequence keeps. -/
theorem commands_keeps {P : State → Prop} (hcommand : ∀ c s, P s → Ends (command c s) (fun r => P r.1))
    (cs : List Command) (s : State) (h : P s) : Ends (commands cs s) (fun r => P r.1) := by
  induction cs generalizing s with
  | nil => exact ⟨_, rfl, h⟩
  | cons c cs ih =>
    obtain ⟨⟨t, r⟩, hc, ht⟩ := hcommand c s h
    obtain ⟨⟨u, rs⟩, hcs, hu⟩ := ih t ht
    exact ⟨(u, r :: rs), commands_cons hc hcs, hu⟩

/-! ### The statements of 10_state.md -/

/-- Settles O38. A step writes at most one byte of working memory, in range, and none of the baseline image. -/
theorem stepKeepsCanonicalMemory : Obligations.StepKeepsCanonicalMemory :=
  fun _ h => step_keeps_wf h

/-- Settles O39, by induction on the sequence: each of the seven commands keeps the form (`command_keeps_wf`). -/
theorem commandsKeepCanonicalMemory : Obligations.CommandsKeepCanonicalMemory :=
  commands_keeps fun c _ h => command_keeps_wf c h

/-- Settles O23. -/
theorem memoryFrame : Obligations.MemoryFrame :=
  fun i s => ⟨_, exec_eq i s, fun _ ha => read_handled_other s ha⟩

/-- Settles O24. -/
theorem accumulatorFrame : Obligations.AccumulatorFrame :=
  fun i s h => ⟨_, exec_eq i s, handled_acc s h⟩

/-- Settles O25. -/
theorem carryFrame : Obligations.CarryFrame :=
  fun i s ha hj => ⟨_, exec_eq i s, handled_carry ha hj⟩

/-- Settles O26. From either flag the handler leaves the same state and the same directive. -/
theorem carryNeverStale : Obligations.CarryNeverStale := by
  intro i s c h
  refine ⟨_, exec_eq i s, ?_⟩
  rw [exec_eq, handled_setCarry s c h, directive_of_isArithmetic _ h, directive_of_isArithmetic _ h, State.setCarry_pc]

/-- Settles O27, by the induction over a run: each step agrees with the state before it on what no handler writes. -/
theorem programsCannotReachHostState : Obligations.ProgramsCannotReachHostState :=
  fun n s => run_keeps (P := HostAgree s) (fun t h => h.trans (handled_host t.fetch t)) n s (HostAgree.refl s)

/-- Settles O40. Both arrays are empty after reset of the created machine (R20, R110). -/
theorem resetStateIsCanonical : Obligations.ResetStateIsCanonical :=
  (State.wf_iff _).mpr ⟨Memory.wf_nil, Memory.wf_nil⟩

end Sys2Proof.Machine

namespace Sys2Proof.Machine

open Sys2Proof.Claims

/-! ### A store into a slot (20_memory.md R27) -/

@[simp] theorem State.instrAt_setPc (s : State) (q p : SlotIndex) : (s.setPc q).instrAt p = s.instrAt p :=
  State.instrAt_of_mem (State.setPc_mem s q) p

/-- Operand bits 7 to 0 of a slot's instruction are the byte at the slot's odd address (R22). -/
theorem State.instrAt_operand_mod (s : State) (p : SlotIndex) :
    (s.instrAt p).operand.toNat % 256 = (Memory.read s.mem (2 * p.toNat + 1)).toNat := by
  rw [State.instrAt_operand_toNat, Nat.mul_add_mod', Nat.mod_eq_of_lt (Memory.read s.mem (2 * p.toNat + 1)).isLt]

/-- Operand bits 11 to 8 of a slot's instruction are the low half of the byte at the slot's even address (R22). -/
theorem State.instrAt_operand_div (s : State) (p : SlotIndex) :
    (s.instrAt p).operand.toNat / 256 = (Memory.read s.mem (2 * p.toNat)).toNat % 16 := by
  have hlow := (Memory.read s.mem (2 * p.toNat + 1)).isLt
  rw [State.instrAt_operand_toNat]; omega

section Stores

variable {i : Instr} {s : State} {a b : Nat} (h : Stores i s a b)
include h

theorem read_handled_stored : (Memory.read (handled i s).mem a).toNat = b := by
  rw [handled_stores h, if_pos rfl]

theorem read_handled_of_ne {k : Nat} (hk : k ≠ a) : Memory.read (handled i s).mem k = Memory.read s.mem k :=
  BitVec.eq_of_toNat_eq (by rw [handled_stores h, if_neg hk])

/-- The slot's other byte, at the odd address, is as before, and with it operand bits 7 to 0. -/
theorem instrAt_handled_even {p : SlotIndex} (ha : a = 2 * p.toNat) :
    ((handled i s).instrAt p).opcode.toNat = b / 16 ∧
    ((handled i s).instrAt p).operand.toNat = b % 16 * 256 + (s.instrAt p).operand.toNat % 256 := by
  have hodd := read_handled_of_ne h (k := 2 * p.toNat + 1) (by omega)
  rw [State.instrAt_opcode_toNat, State.instrAt_operand_toNat, State.instrAt_operand_mod, hodd, ← ha,
    read_handled_stored h]
  exact ⟨rfl, rfl⟩

/-- The slot's other byte, at the even address, is as before, and with it the opcode and operand bits 11 to 8. -/
theorem instrAt_handled_odd {p : SlotIndex} (ha : a = 2 * p.toNat + 1) :
    ((handled i s).instrAt p).opcode = (s.instrAt p).opcode ∧
    ((handled i s).instrAt p).operand.toNat = (s.instrAt p).operand.toNat / 256 * 256 + b := by
  have heven := read_handled_of_ne h (k := 2 * p.toNat) (by omega)
  constructor
  · apply BitVec.eq_of_toNat_eq
    rw [State.instrAt_opcode_toNat, State.instrAt_opcode_toNat, heven]
  · rw [State.instrAt_operand_toNat, State.instrAt_operand_div, heven, ← ha, read_handled_stored h]

/-- A slot that the address does not fall in has neither of its two bytes written. -/
theorem instrAt_handled_of_ne {p : SlotIndex} (hp : a / 2 ≠ p.toNat) : (handled i s).instrAt p = s.instrAt p :=
  State.instrAt_congr (read_handled_of_ne h (by omega)) (read_handled_of_ne h (by omega))

end Stores

/-! ### The layout of an install (R86) -/

/-- An install lays the image on zeros, not on the bytes the baseline held (decision D4, log entry 6). -/
theorem State.install_base_fresh (s : State) (image : ProgramImage) : (s.install image).base = layoutFrom 0 image [] :=
  State.install_base s image

/-- The words past the last slot play no part in an install. -/
theorem State.install_take (s : State) (image : ProgramImage) : s.install (image.take 2048) = s.install image :=
  congrArg s.setBase (layoutFrom_take 0 image (installGround installFill s.base))

theorem State.read_install_word (s : State) {image : ProgramImage} {k : Nat} {w : Word} (hk : k < 2048)
    (hw : image[k]? = some w) :
    Memory.read (s.install image).base (2 * k) = highByte w ∧
    Memory.read (s.install image).base (2 * k + 1) = lowByte w := by
  have hword := read_layoutFrom_word (k := 0) image [] hw (by omega)
  rwa [Nat.zero_add, ← State.install_base_fresh s] at hword

theorem State.read_install_past (s : State) {image : ProgramImage} {a : Nat} (ha : 2 * image.length ≤ a) :
    Memory.read (s.install image).base a = 0 := by
  rw [State.install_base_fresh, read_layoutFrom_above _ _ (by omega), Memory.read_nil]

/-! ### The statements of 20_memory.md -/

/-- Settles O34. The instruction of a slot is read off its two bytes, and the store rewrites exactly one byte. -/
theorem storeRewritesInstructionSlot : Obligations.StoreRewritesInstructionSlot := by
  intro i s a b h
  refine ⟨_, exec_eq i s, fun p => ?_⟩
  rw [State.instrAt_setPc]
  exact ⟨instrAt_handled_even h, instrAt_handled_odd h, instrAt_handled_of_ne h⟩

/-- Settles O44. The three parts are the words laid out, the zero ground past them, and the cut at the last slot. -/
theorem installLaysOutImage : Obligations.InstallLaysOutImage := by
  intro image s
  refine ⟨s.install image, rfl, fun k w hk hw => ?_, fun a => State.read_install_past s, ?_⟩
  · obtain ⟨hhigh, hlow⟩ := State.read_install_word s hk hw
    rw [hhigh, hlow]
    exact ⟨highByte_toNat w, lowByte_toNat w⟩
  · rw [← State.install_take s image]; rfl

/-- Settles O5, by evaluating the decoder on each of the nine lists of bytes. -/
theorem writtenOutWordsDecode : Obligations.WrittenOutWordsDecode :=
  ⟨rfl, rfl, rfl, rfl, rfl, rfl, rfl, rfl, rfl⟩

end Sys2Proof.Machine

namespace Sys2Proof.Machine

/-! ### The decoder against the encoder (30_encoding.md R32, R37) -/

theorem decodeWord_encode (i : Instr) : decodeWord (encode i) = i := by
  have hx := i.operand.isLt
  apply Instr.eq_of_fields <;> apply BitVec.eq_of_toNat_eq
  · rw [decodeWord_opcode_toNat, encode_toNat]; omega
  · rw [decodeWord_operand_toNat, encode_toNat]; omega

theorem highByte_append (b0 b1 : Byte) : highByte (b0 ++ b1) = b0 := by
  have h1 := b1.isLt
  apply BitVec.eq_of_toNat_eq
  rw [highByte_toNat, bytes_toNat]; omega

theorem lowByte_append (b0 b1 : Byte) : lowByte (b0 ++ b1) = b1 := by
  have h1 := b1.isLt
  apply BitVec.eq_of_toNat_eq
  rw [lowByte_toNat, bytes_toNat]; omega

/-- The decoder on two bytes is the decoder on the word they make (R32). -/
theorem decodeWord_append (b0 b1 : Byte) : decodeWord (b0 ++ b1) = decode b0 b1 := by
  rw [decodeWord, highByte_append, lowByte_append]

/-- Encoding loses no bit of the two bytes decoded, the ignored operands' bits included (R36). -/
theorem encode_decode (b0 b1 : Byte) : encode (decode b0 b1) = b0 ++ b1 := by
  have h0 := b0.isLt
  apply BitVec.eq_of_toNat_eq
  rw [encode_toNat, decode_opcode, decode_operand, opcodeField_toNat, operandField_toNat, bytes_toNat]
  omega

theorem encodeBytes_decode (b0 b1 : Byte) : encodeBytes (decode b0 b1) = [b0, b1] := by
  rw [encodeBytes, encode_decode, highByte_append, lowByte_append]

/-- Two bytes that an instruction encodes to decode to that instruction. -/
theorem eq_decode_of_encodeBytes {i : Instr} {b0 b1 : Byte} (h : encodeBytes i = [b0, b1]) : i = decode b0 b1 := by
  obtain ⟨rfl, rfl⟩ : highByte (encode i) = b0 ∧ lowByte (encode i) = b1 := by simpa [encodeBytes] using h
  exact (decodeWord_encode i).symm

/-- The encoding formula on the assembler's numbers: the argument is cut to its low twelve bits (R37, R73). -/
theorem encodeArgs_toNat {e : EncodeArgs} (hop : e.opcode < 16) :
    (encodeArgs e).toNat = e.opcode * 4096 + e.argument % 4096 := by
  rw [encodeArgs, encodeWord_toNat, BitVec.toNat_ofNat, BitVec.toNat_ofNat]
  omega

/-! ### The statements of 30_encoding.md -/

/-- Settles O2. The two bytes are those of the encoded word, which decodes to the instruction (`decodeWord_encode`). -/
theorem decodeOfEncode : Obligations.DecodeOfEncode := by
  intro i rest
  show Except.ok (decodeWord (encode i), rest) = Except.ok (i, rest)
  rw [decodeWord_encode]

/-- Settles O3. The fields of the pair and of its word, and both directions of the round trip. -/
theorem decodeFieldsAndInverse : Obligations.DecodeFieldsAndInverse := by
  intro b0 b1
  refine ⟨?_, ?_, encodeBytes_decode b0 b1, fun _ => eq_decode_of_encodeBytes, ?_⟩
  · rw [decode_opcode, opcodeField_toNat]
  · rw [decode_operand, operandField_toNat]
  · rintro w rfl
    rw [← decodeWord_append]
    exact ⟨decodeWord_opcode_toNat _, decodeWord_operand_toNat _⟩

/-- Settles O4. Both bytes are read off the word's number (`encodeArgs_toNat`). -/
theorem encodeFormula : Obligations.EncodeFormula := by
  intro op argument hop _
  have hword : (encodeArgs ⟨op, argument⟩).toNat = op * 4096 + argument % 4096 := encodeArgs_toNat hop
  rw [highByte_toNat, lowByte_toNat, hword]
  omega

end Sys2Proof.Machine

namespace Sys2Proof.Machine

open Sys2Proof.Claims

/-! ### Control transfer (40_step_cycle.md R43 to R45) -/

/-- The target a directive carries. -/
def Directive.target (d : Directive) : Option Nat :=
  match d with
  | .advance => none
  | .jump x => some x.toNat

theorem jumpIf_target (taken : Bool) (x : Operand) :
    (jumpIf taken x).target = if taken = true then some x.toNat else none := by
  cases taken <;> rfl

/-- A jump is taken, to its target, exactly when the handler returns the jump's directive (45_jumps.md). -/
theorem target_directive (i : Instr) (s : State) : (directive i s).target = takenTarget i s := by
  have hzero : s.acc = 0 ↔ s.acc.toNat = 0 := BitVec.toNat_inj.symm
  cases i
  case jmpInz x => simp only [directive, takenTarget, jumpIf_target, decide_eq_true_eq, ne_eq, hzero, ite_not]
  case jmpIz x => simp only [directive, takenTarget, jumpIf_target, decide_eq_true_eq, hzero]
  case jmpIc x => exact jumpIf_target s.carry x
  all_goals rfl

theorem nextPc_of_target_none {d : Directive} (p : SlotIndex) (h : d.target = none) :
    (nextPc p d).toNat = (p.toNat + 1) % 2048 := by
  cases d with
  | advance => exact nextPc_advance p
  | jump x => cases h

theorem nextPc_of_target_some {d : Directive} {target : Nat} (p : SlotIndex) (h : d.target = some target) :
    (nextPc p d).toNat = if target > 2047 then 0 else target := by
  cases d with
  | advance => cases h
  | jump x => cases h; exact nextPc_jump p x

/-- Advance is addition on the eleven bits of the program counter (R44, log entry 3). -/
theorem nextPc_advance_eq_add (p : SlotIndex) : nextPc p .advance = p + 1 := by
  apply BitVec.eq_of_toNat_eq
  rw [nextPc_advance, BitVec.toNat_add]; rfl

/-! ### What a step reads (R40, R47) -/

section Reads

variable {s t : State} {i : Instr} (hacc : s.acc = t.acc) (hcarry : s.carry = t.carry)

include hacc hcarry in
/-- A directive is decided by the accumulator and the flag. -/
theorem directive_congr (i : Instr) : directive i s = directive i t := by
  cases i
  case jmpInz | jmpIz => simp only [directive, hacc]
  case jmpIc => simp only [directive, hcarry]
  all_goals rfl

variable (hbyte : s.readByte i.operand = t.readByte i.operand)
include hacc hbyte

/-- The accumulator a handler leaves is decided by the accumulator and the byte at the operand. -/
theorem handled_acc_congr : (handled i s).acc = (handled i t).acc := by
  cases i
  case set => rfl
  case load => exact hbyte
  case add | sub => simp only [handled, State.setResult_acc, hacc]
  case addMem | subMem =>
    simp only [Instr.operand] at hbyte
    simp only [handled, State.setResult_acc, hacc, hbyte]
  all_goals exact hacc

include hcarry in
/-- The flag a handler leaves is decided by both registers and the byte at the operand. -/
theorem handled_carry_congr : (handled i s).carry = (handled i t).carry := by
  cases i
  case add | sub => simp only [handled, State.setResult_carry, hacc]
  case addMem | subMem =>
    simp only [Instr.operand] at hbyte
    simp only [handled, State.setResult_carry, hacc, hbyte]
  case inc | dec =>
    simp only [Instr.operand] at hbyte
    simp only [handled, State.writeResult_carry, hbyte]
  case jmpIc => rfl
  all_goals exact hcarry

/-- Two states with one accumulator and one byte at the operand store nothing, or the same byte at the operand. -/
theorem handled_mem_congr :
    ((handled i s).mem = s.mem ∧ (handled i t).mem = t.mem) ∨
    ∃ v : Byte, (handled i s).mem = Memory.write s.mem (addr12 i.operand) v ∧
      (handled i t).mem = Memory.write t.mem (addr12 i.operand) v := by
  cases i
  case save x => exact .inr ⟨s.acc, rfl, hacc ▸ rfl⟩
  case inc x => exact .inr ⟨(add8 (s.readByte x) 1).1, rfl, (show s.readByte x = t.readByte x from hbyte) ▸ rfl⟩
  case dec x => exact .inr ⟨(sub8 (s.readByte x) 1).1, rfl, (show s.readByte x = t.readByte x from hbyte) ▸ rfl⟩
  all_goals exact .inl ⟨rfl, rfl⟩

/-- The byte at the operand after a handler is decided by that byte and the accumulator. -/
theorem readByte_handled_congr : (handled i s).readByte i.operand = (handled i t).readByte i.operand := by
  unfold State.readByte at hbyte ⊢
  obtain ⟨hs, ht⟩ | ⟨v, hs, ht⟩ := handled_mem_congr hacc hbyte
  · rw [hs, ht, hbyte]
  · rw [hs, ht, Memory.read_write_same, Memory.read_write_same]

end Reads

/-- What one instruction makes of two states that agree on pc, M, acc and carry. -/
theorem EngineAgree.handled_setPc {s t : State} (h : EngineAgree s t) (i : Instr) :
    EngineAgree ((handled i s).setPc (nextPc s.pc (directive i s)))
      ((handled i t).setPc (nextPc t.pc (directive i t))) := by
  obtain ⟨hpc, hacc, hcarry, hmem⟩ := h
  have hbyte : s.readByte i.operand = t.readByte i.operand := by rw [State.readByte, State.readByte, hmem]
  have hmem' : (handled i s).mem = (handled i t).mem := by
    obtain ⟨hs, ht⟩ | ⟨v, hs, ht⟩ := handled_mem_congr hacc hbyte <;> rw [hs, ht, hmem]
  have hpc' : nextPc s.pc (directive i s) = nextPc t.pc (directive i t) := by
    rw [hpc, directive_congr hacc hcarry]
  exact ⟨hpc', handled_acc_congr hacc hbyte, handled_carry_congr hacc hcarry hbyte, hmem'⟩

theorem EngineAgree.fetch_eq {s t : State} (h : EngineAgree s t) : s.fetch = t.fetch := by
  obtain ⟨hpc, -, -, hmem⟩ := h
  rw [State.fetch_eq, State.fetch_eq, hpc, hmem]

/-! ### Zero memory (10_state.md R20, R50) -/

theorem fetch_of_zero_memory {s : State} (h : ∀ a, Memory.read s.mem a = 0) : s.fetch = .noop 0 := by
  rw [State.fetch_eq, h, h]; rfl

/-- A run on zero memory adds its length to the program counter, on eleven bits. -/
theorem run_of_zero_memory (n : Nat) {s : State} (h : ∀ a, Memory.read s.mem a = 0) :
    core.run n s = .next (s.setPc (s.pc + BitVec.ofNat 11 n)) := by
  induction n generalizing s with
  | zero => rw [BitVec.add_zero]; rfl
  | succ n ih =>
    have hstep : core.run (n + 1) s = core.run n (s.setPc (s.pc + 1)) := by
      rw [run_succ, fetch_of_zero_memory h, ← nextPc_advance_eq_add]; rfl
    have hpc : s.pc + BitVec.ofNat 11 (n + 1) = s.pc + 1 + BitVec.ofNat 11 n := by
      rw [Nat.add_comm, BitVec.ofNat_add, BitVec.add_assoc]; rfl
    rw [hstep, ih (s := s.setPc (s.pc + 1)) h, hpc]; rfl

/-! ### The statements of 40_step_cycle.md -/

/-- Settles O22. The directive's target is the taken jump's (`target_directive`), and it decides the next pc. -/
theorem nextProgramCounter : Obligations.NextProgramCounter := by
  intro i s
  refine ⟨_, exec_eq i s, fun hnone => ?_, fun target hsome => ?_⟩
  · exact nextPc_of_target_none s.pc ((target_directive i s).trans hnone)
  · exact nextPc_of_target_some s.pc ((target_directive i s).trans hsome)

/-- Settles O32. Both states fetch one instruction, and its handler neither reads nor writes the host's state. -/
theorem stepIgnoresHostState : Obligations.StepIgnoresHostState := by
  intro s t h
  have ht : step t = exec s.fetch t := by rw [h.fetch_eq]; rfl
  exact ⟨_, _, exec_eq s.fetch s, ht.trans (exec_eq s.fetch t), h.handled_setPc s.fetch,
    handled_host s.fetch s, handled_host s.fetch t⟩

/-- Settles O33. The two instruction bytes give one instruction, which touches no data byte but the one at its operand. -/
theorem stepReadsOneDataByte : Obligations.StepReadsOneDataByte := by
  intro s t hpc hacc hcarry hhigh hlow hbyte
  have hfetch : t.fetch = s.fetch := by rw [State.fetch_eq, State.fetch_eq, ← hpc, hhigh, hlow]
  have ht : step t = exec s.fetch t := by rw [← hfetch]; rfl
  have hpc' : nextPc s.pc (directive s.fetch s) = nextPc t.pc (directive s.fetch t) := by
    rw [hpc, directive_congr hacc hcarry]
  exact ⟨_, _, exec_eq s.fetch s, ht.trans (exec_eq s.fetch t), hpc', handled_acc_congr hacc hbyte,
    handled_carry_congr hacc hcarry hbyte, readByte_handled_congr hacc hbyte⟩

/-- Settles O37, by induction on the number of steps (`run_of_zero_memory`): each one executes noop 0. -/
theorem zeroMemoryWalksProgramCounter : Obligations.ZeroMemoryWalksProgramCounter := by
  intro n s h
  refine ⟨_, run_of_zero_memory n h, ?_, rfl, rfl, rfl, HostAgree.refl s⟩
  rw [State.setPc_pc, BitVec.toNat_add, BitVec.toNat_ofNat, Nat.add_mod_mod]

/-- Settles O1. The fetch reads and decodes the same two bytes, and a step is exec of what it fetched. -/
theorem stepRunsFetchedInstruction : Obligations.StepRunsFetchedInstruction := by
  rintro s b0 b1 i rfl rfl h
  have hfetch : s.fetch = i := congrArg Prod.fst (Except.ok.inj h)
  rw [step, hfetch]

end Sys2Proof.Machine

namespace Sys2Proof.Machine

open Sys2Proof.Claims

/-! ### The encoding of an instruction's rule (30_encoding.md R31, R32) -/

/-- Decoding loses no bit of a word, the ignored operands' bits included (R36). -/
theorem encode_decodeWord (w : Word) : encode (decodeWord w) = w := by
  rw [decodeWord, encode_decode, highByte_append_lowByte]

/-- A word decodes to an instruction exactly when it is that instruction's encoding. -/
theorem decodeWord_eq_iff {w : Word} {i : Instr} : decodeWord w = i ↔ w = encode i :=
  ⟨fun h => h ▸ (encode_decodeWord w).symm, fun h => h ▸ decodeWord_encode i⟩

/-- The opcode and the operand of an instruction form are all that its encoding rests on. -/
theorem hasEncoding_of_fields {op : Opcode} {mk : Operand → Instr} (hop : ∀ x, (mk x).opcode = op)
    (hx : ∀ x, (mk x).operand = x) : HasEncoding op mk := by
  have hencode (x : Operand) : encode (mk x) = op ++ x := by rw [encode_eq_append, hop, hx]
  exact ⟨hencode, fun w x => hencode x ▸ decodeWord_eq_iff⟩

/-! ### An instruction line (46_assembler.md R71 to R75) -/

theorem mem_of_indexFrom {k j : Nat} {m : Text} {ts : List Text} (h : indexFrom k m ts = some j) : m ∈ ts := by
  induction ts generalizing k with
  | nil => cases h
  | cons t ts ih =>
    unfold indexFrom at h
    split at h
    case isTrue heq => exact heq ▸ List.mem_cons_self
    case isFalse => exact List.mem_cons_of_mem t (ih h)

/-- No mnemonic holds a space or a line terminator. -/
theorem not_trimmed_of_mem_mnemonic {m : Text} (hm : m ∈ mnemonicTable) {c : Char} (hc : c ∈ m) :
    isTrimmed c = false := by
  have hall : (mnemonicTable.all fun t => t.all fun d => !isTrimmed d) = true := by decide
  simpa using List.all_eq_true.mp (List.all_eq_true.mp hall m hm) c hc

/-- A line that begins with a mnemonic is retained. -/
theorem discarded_mnemonic {m : Text} (hm : m ∈ mnemonicTable) : discarded m = false :=
  (by decide : ∀ t ∈ mnemonicTable, discarded t = false) m hm

theorem discarded_append {l : Text} (a : Text) (h : discarded l = false) : discarded (l ++ a) = false := by
  cases l with
  | nil => cases h
  | cons c cs => exact h

/-- A mnemonic, a space and an argument that parses: one word (R72 to R75). -/
theorem compileLine_mnemonic {r : Bool} {m a : Text} {op n : Nat} (hop : opcodeOfMnemonic m = some op)
    (hn : parseArgument r (trim a) = some n) : compileLine r (m ++ ' ' :: a) = .word ⟨op, n⟩ := by
  have hm : m ∈ mnemonicTable := mem_of_indexFrom hop
  have hspace : ' ' ∉ m := fun h => absurd (not_trimmed_of_mem_mnemonic hm h) (by decide)
  simp only [compileLine_split a (discarded_append _ (discarded_mnemonic hm)) hspace, hn, hop]

/-- A text of one line, with no terminator, is compiled as that line (R71). -/
theorem compile_single_line {l : Text} (hlf : '\n' ∉ l) (hcr : '\r' ∉ l) :
    compile l = compileLines rejectWideArg [l] := by
  have hlast : l.getLast? ≠ some '\r' := fun h => hcr (List.mem_of_getLast? h)
  rw [compile, compileWith, lines_of_no_lf hlf, stripCr_of_getLast hlast]

theorem compileLines_single_word {r : Bool} {l : Text} {e : EncodeArgs} (h : compileLine r l = .word e) :
    compileLines r [l] = .ok [encodeArgs e] := by
  simp only [compileLines, h]

/-- A printed number that the argument's limit admits parses as itself (R73, decision D7). -/
theorem parseArgument_trim_decimal {r : Bool} {n : Nat} (h : n ≤ argumentLimit r) :
    parseArgument r (trim (decimal n)) = some n := by
  obtain ⟨hne, hdigits, hvalue⟩ := decimal_spec n
  have htrim : trim (decimal n) = decimal n := by
    have := trim_append (before := []) (after := []) (by simp) (by simp) hne
      fun c hc => not_trimmed_of_isDigit (hdigits c hc)
    rwa [List.nil_append, List.append_nil] at this
  rw [htrim]
  exact parseArgument_eq_some.mpr ⟨hne, hdigits, hvalue.symm ▸ h, hvalue⟩

/-- The one white space of an instruction line is the space that separates its parts, so it holds no line terminator. -/
theorem eq_space_of_mem_instructionLine {m : Text} {n : Nat} (hm : m ∈ mnemonicTable) {c : Char}
    (hc : c ∈ instructionLine m n) (ht : isTrimmed c = true) : c = ' ' := by
  obtain ⟨-, hdigits, -⟩ := decimal_spec n
  obtain hc | hc := List.mem_append.mp hc
  · exact absurd ht (Bool.eq_false_iff.mp (not_trimmed_of_mem_mnemonic hm hc))
  · obtain rfl | hc := List.mem_cons.mp hc
    · rfl
    · exact absurd ht (Bool.eq_false_iff.mp (not_trimmed_of_isDigit (hdigits c hc)))

/-- The assembler's word for an opcode and an argument: the opcode above the argument's low twelve bits (R37). -/
theorem encodeArgs_eq_append (op : Opcode) (n : Nat) : encodeArgs ⟨op.toNat, n⟩ = op ++ BitVec.ofNat 12 n := by
  apply BitVec.eq_of_toNat_eq
  rw [encodeArgs_toNat op.isLt, append_toNat, BitVec.toNat_ofNat]

/-- The place of a mnemonic in the table is all that its assembler form rests on. -/
theorem hasForm_of_opcodeOfMnemonic {op : Opcode} {m : Text} (hop : opcodeOfMnemonic m = some op.toNat) :
    HasForm op m := by
  intro n hn
  have hm : m ∈ mnemonicTable := mem_of_indexFrom hop
  have hlf : '\n' ∉ instructionLine m n := fun h => absurd (eq_space_of_mem_instructionLine hm h rfl) (by decide)
  have hcr : '\r' ∉ instructionLine m n := fun h => absurd (eq_space_of_mem_instructionLine hm h rfl) (by decide)
  have hlimit : n ≤ argumentLimit rejectWideArg := hn.trans (by decide)
  rw [compile_single_line hlf hcr, instructionLine,
    compileLines_single_word (compileLine_mnemonic hop (parseArgument_trim_decimal hlimit)), encodeArgs_eq_append]

/-! ### Instructions that advance (40_step_cycle.md R44) -/

theorem nextPc_advance_eq_advanced (s : State) : (nextPc s.pc .advance).toNat = advanced s := by
  have hpc := s.pc.isLt
  rw [nextPc_advance]
  unfold advanced
  split <;> omega

/-- An instruction that advances completes with what its handler left, the next slot's pc, and the host's state kept. -/
theorem exec_of_advance {i : Instr} {s : State} (h : directive i s = .advance) :
    ∃ t, exec i s = .next t ∧ t.pc.toNat = advanced s ∧ t.acc = (handled i s).acc ∧ t.carry = (handled i s).carry ∧
      t.mem = (handled i s).mem ∧ HostAgree s t := by
  refine ⟨_, exec_eq i s, ?_, rfl, rfl, rfl, handled_host i s⟩
  rw [h, State.setPc_pc, nextPc_advance_eq_advanced]

/-- The handler's state and the directive are all of an instruction that a step can see. -/
theorem exec_congr {i j : Instr} {s : State} (hh : handled i s = handled j s) (hd : directive i s = directive j s) :
    exec i s = exec j s := by
  rw [exec_eq, exec_eq, hh, hd]

theorem imm8_congr {x y : Operand} (h : x.toNat % 256 = y.toNat % 256) : imm8 x = imm8 y :=
  BitVec.eq_of_toNat_eq (by rw [imm8_toNat, imm8_toNat, h])

/-! ### The statements of 41_noop_reserved.md -/

/-- Settles O6. The handler of noop leaves the state as it is, and its directive is to advance. -/
theorem noopOnlyAdvances : Obligations.NoopOnlyAdvances :=
  ⟨hasEncoding_of_fields (fun _ => rfl) (fun _ => rfl), hasForm_of_opcodeOfMnemonic (by decide),
    fun x s => exec_of_advance (i := .noop x) (s := s) rfl⟩

/-- Settles O7. The handler of wext leaves the state as it is, and its directive is to advance. -/
theorem wextOnlyAdvances : Obligations.WextOnlyAdvances :=
  ⟨hasEncoding_of_fields (fun _ => rfl) (fun _ => rfl), hasForm_of_opcodeOfMnemonic (by decide),
    fun x s => exec_of_advance (i := .wext x) (s := s) rfl⟩

/-- Settles O8. The handler of rext leaves the state as it is, the accumulator included, and its directive is to
advance. -/
theorem rextOnlyAdvances : Obligations.RextOnlyAdvances :=
  ⟨hasEncoding_of_fields (fun _ => rfl) (fun _ => rfl), hasForm_of_opcodeOfMnemonic (by decide),
    fun x s => exec_of_advance (i := .rext x) (s := s) rfl⟩

/-- Settles O30. The three no-ops have one handler's state and one directive (`exec_congr`); set, add and sub take the
operand's low eight bits only, add and sub by decision D3 (`immValue_immRule`). -/
theorem ignoredOperandBitsHaveNoEffect : Obligations.IgnoredOperandBitsHaveNoEffect := by
  intro x y s
  refine ⟨⟨exec_congr rfl rfl, exec_congr rfl rfl, exec_congr rfl rfl⟩, fun h => ?_⟩
  have himm : immValue immRule x = immValue immRule y := by rw [immValue_immRule, immValue_immRule, h]
  refine ⟨exec_congr ?_ rfl, exec_congr ?_ rfl, exec_congr ?_ rfl⟩
  · rw [handled, handled, imm8_congr h]
  · rw [handled, handled, himm]
  · rw [handled, handled, himm]

end Sys2Proof.Machine

namespace Sys2Proof.Machine

open Sys2Proof.Claims

/-! ### The statements of 42_data_movement.md -/

/-- Settles O9. The handler of set writes the accumulator alone, with the operand's low eight bits (`imm8_toNat`). -/
theorem setLoadsImmediate : Obligations.SetLoadsImmediate := by
  refine ⟨hasEncoding_of_fields (fun _ => rfl) (fun _ => rfl), hasForm_of_opcodeOfMnemonic (by decide), fun x s => ?_⟩
  obtain ⟨t, hexec, hpc, hacc, hcarry, hmem, hhost⟩ := exec_of_advance (i := .set x) (s := s) rfl
  have himm : t.acc.toNat = x.toNat % 256 := hacc ▸ imm8_toNat x
  exact ⟨t, hexec, himm, hpc, hcarry, hmem, hhost⟩

/-- Settles O10. The handler of load writes the accumulator alone, with the byte it reads at the operand. -/
theorem loadReadsByte : Obligations.LoadReadsByte := by
  refine ⟨hasEncoding_of_fields (fun _ => rfl) (fun _ => rfl), hasForm_of_opcodeOfMnemonic (by decide), fun x s => ?_⟩
  obtain ⟨t, hexec, hpc, hacc, hcarry, hmem, hhost⟩ := exec_of_advance (i := .load x) (s := s) rfl
  exact ⟨t, hexec, hacc, hpc, hcarry, hmem, hhost⟩

/-- Settles O11. The handler of save writes one byte: a read at the operand gives the accumulator,
and every other byte is as before (`State.read_writeByte`). -/
theorem saveWritesByte : Obligations.SaveWritesByte := by
  refine ⟨hasEncoding_of_fields (fun _ => rfl) (fun _ => rfl), hasForm_of_opcodeOfMnemonic (by decide), fun x s => ?_⟩
  obtain ⟨t, hexec, hpc, hacc, hcarry, hmem, hhost⟩ := exec_of_advance (i := .save x) (s := s) rfl
  have hread (a : Nat) : Memory.read t.mem a = if a = x.toNat then s.acc else Memory.read s.mem a :=
    hmem ▸ State.read_writeByte s x s.acc a
  have hsame : Memory.read t.mem x.toNat = s.acc := (hread x.toNat).trans (if_pos rfl)
  have hother : ∀ a, a ≠ x.toNat → Memory.read t.mem a = Memory.read s.mem a :=
    fun a ha => (hread a).trans (if_neg ha)
  exact ⟨t, hexec, hsame, hother, hpc, hacc, hcarry, hhost⟩

end Sys2Proof.Machine

namespace Sys2Proof.Machine

open Sys2Proof.Claims

/-! ### An accumulator operation (43_arithmetic.md R56, R57 to R60) -/

/-- An instruction whose handler leaves an ALU result, in the terms of that result: the byte in the accumulator, the
flag in the carry, nothing else but the program counter's advance. -/
theorem exec_of_setResult {i : Instr} {s : State} {r : Byte × Bool} (hd : directive i s = .advance)
    (hr : handled i s = s.setResult r) :
    ∃ t, exec i s = .next t ∧ t.acc = r.1 ∧ t.carry = r.2 ∧ t.pc.toNat = advanced s ∧ t.mem = s.mem ∧
      HostAgree s t := by
  obtain ⟨t, hexec, hpc, hacc, hcarry, hmem, hhost⟩ := exec_of_advance hd
  rw [hr] at hacc hcarry hmem
  exact ⟨t, hexec, hacc, hcarry, hpc, hmem, hhost⟩

/-- An instruction that adds a number to the accumulator. -/
theorem exec_of_aluAdd {i : Instr} {s : State} {n : Nat} (hd : directive i s = .advance)
    (hr : handled i s = s.setResult (aluAdd s.acc.toNat n)) :
    ∃ t, exec i s = .next t ∧ t.acc.toNat = (s.acc.toNat + n) % 256 ∧ (t.carry = true ↔ s.acc.toNat + n > 255) ∧
      t.pc.toNat = advanced s ∧ t.mem = s.mem ∧ HostAgree s t := by
  obtain ⟨t, hexec, hacc, hcarry, hrest⟩ := exec_of_setResult hd hr
  exact ⟨t, hexec, hacc ▸ aluAdd_toNat _ _, hcarry ▸ aluAdd_carry _ _, hrest⟩

/-- An instruction that subtracts a number from the accumulator. -/
theorem exec_of_aluSub {i : Instr} {s : State} {n : Nat} (hd : directive i s = .advance)
    (hr : handled i s = s.setResult (aluSub s.acc.toNat n)) :
    ∃ t, exec i s = .next t ∧ (t.acc.toNat : Int) = ((s.acc.toNat : Int) - n) % 256 ∧
      (t.carry = true ↔ s.acc.toNat < n) ∧ t.pc.toNat = advanced s ∧ t.mem = s.mem ∧ HostAgree s t := by
  obtain ⟨t, hexec, hacc, hcarry, hrest⟩ := exec_of_setResult hd hr
  exact ⟨t, hexec, hacc ▸ aluSub_toNat _ _, hcarry ▸ aluSub_carry _ _, hrest⟩

/-! ### The laws of add8 and sub8 (43_arithmetic.md R56) -/

/-- Two ALU results are one when their bytes are the same number and their flags are true together. -/
theorem result_ext {p q : Byte × Bool} (hbyte : p.1.toNat = q.1.toNat) (hflag : p.2 = true ↔ q.2 = true) : p = q :=
  Prod.ext (BitVec.eq_of_toNat_eq hbyte) (Bool.eq_iff_iff.mpr hflag)

theorem add8_toNat (a b : Byte) : (add8 a b).1.toNat = (a.toNat + b.toNat) % 256 := aluAdd_toNat _ _

theorem add8_carry (a b : Byte) : (add8 a b).2 = true ↔ a.toNat + b.toNat > 255 := aluAdd_carry _ _

theorem sub8_toNat (a b : Byte) : (sub8 a b).1.toNat = (a.toNat + (256 - b.toNat)) % 256 :=
  aluSub_toNat_of_le _ _ b.isLt.le

theorem sub8_borrow (a b : Byte) : (sub8 a b).2 = true ↔ a.toNat < b.toNat := aluSub_carry _ _

theorem add8_zero (a : Byte) : add8 a 0 = (a, false) := by
  have hflag : ¬ a.toNat > 255 := by omega
  exact result_ext ((add8_toNat a 0).trans (Nat.mod_eq_of_lt a.isLt)) ((add8_carry a 0).trans (by simpa using hflag))

theorem sub8_zero (a : Byte) : sub8 a 0 = (a, false) := by
  have hbyte : (a.toNat + 256) % 256 = a.toNat := by omega
  exact result_ext ((sub8_toNat a 0).trans hbyte) ((sub8_borrow a 0).trans (by simp))

theorem sub8_self (a : Byte) : sub8 a a = (0, false) := by
  have hbyte : (a.toNat + (256 - a.toNat)) % 256 = 0 := by omega
  exact result_ext ((sub8_toNat a a).trans hbyte) ((sub8_borrow a a).trans (by simp))

theorem add8_comm (a b : Byte) : add8 a b = add8 b a := by
  rw [add8, add8, aluAdd, aluAdd, Nat.add_comm]

/-- The flag of an addition as a comparison: the sum wrapped exactly when it came out below a summand. -/
theorem add8_carry_iff_lt (a b : Byte) : (add8 a b).2 = true ↔ (add8 a b).1.toNat < a.toNat := by
  rw [add8_carry, add8_toNat]
  omega

/-- A subtraction takes back an addition, whichever of the two wrapped. -/
theorem sub8_add8_cancel (a b : Byte) : (sub8 (add8 a b).1 b).1 = a := by
  apply BitVec.eq_of_toNat_eq
  rw [sub8_toNat, add8_toNat]
  omega

/-! ### The statements of 43_arithmetic.md -/

/-- Settles O12. The handler of add leaves the ALU's sum with the immediate, which is the operand's low eight bits by
decision D3 (`immValue_immRule`). -/
theorem addAddsImmediate : Obligations.AddAddsImmediate :=
  ⟨hasEncoding_of_fields (fun _ => rfl) (fun _ => rfl), hasForm_of_opcodeOfMnemonic (by decide),
    fun x _ => exec_of_aluAdd rfl (immValue_immRule x ▸ rfl)⟩

/-- Settles O13. The handler of sub leaves the ALU's difference with the immediate, which is the operand's low eight bits
by decision D3 (`immValue_immRule`). -/
theorem subSubtractsImmediate : Obligations.SubSubtractsImmediate :=
  ⟨hasEncoding_of_fields (fun _ => rfl) (fun _ => rfl), hasForm_of_opcodeOfMnemonic (by decide),
    fun x _ => exec_of_aluSub rfl (immValue_immRule x ▸ rfl)⟩

/-- Settles O14. The handler of add_mem leaves the ALU's sum with the byte it reads at the operand. -/
theorem addMemAddsByte : Obligations.AddMemAddsByte :=
  ⟨hasEncoding_of_fields (fun _ => rfl) (fun _ => rfl), hasForm_of_opcodeOfMnemonic (by decide),
    fun x _ => exec_of_aluAdd (i := .addMem x) rfl rfl⟩

/-- Settles O15. The handler of sub_mem leaves the ALU's difference, the byte it reads at the operand taken from the
accumulator. -/
theorem subMemSubtractsByte : Obligations.SubMemSubtractsByte :=
  ⟨hasEncoding_of_fields (fun _ => rfl) (fun _ => rfl), hasForm_of_opcodeOfMnemonic (by decide),
    fun x _ => exec_of_aluSub (i := .subMem x) rfl rfl⟩

/-- Settles O28. The results and flags are the ALU law's (`aluAdd_toNat` and its three companions); each consequence
follows from them by arithmetic modulo 256. -/
theorem aluLawsModulo256 : Obligations.AluLawsModulo256 := fun a b =>
  ⟨add8_toNat a b, add8_carry a b, aluSub_toNat _ _, (sub8_borrow a b).trans (by omega), add8_zero a, sub8_zero a,
    sub8_self a, add8_comm a b, add8_carry_iff_lt a b, sub8_borrow a b, sub8_add8_cancel a b⟩

end Sys2Proof.Machine

namespace Sys2Proof.Machine

open Sys2Proof.Claims

/-! ### A read-modify-write of a memory byte (44_incdec.md R61, R62) -/

/-- An instruction that stores a byte and keeps the accumulator, in the terms of that store: the byte at its address, no
other byte, the flag its handler left, and the program counter's advance. -/
theorem exec_of_stores {i : Instr} {s : State} {a b : Nat} (hd : directive i s = .advance) (hw : writesAcc i = false)
    (h : Stores i s a b) :
    ∃ t, exec i s = .next t ∧ (Memory.read t.mem a).toNat = b ∧
      (∀ k, k ≠ a → Memory.read t.mem k = Memory.read s.mem k) ∧ t.carry = (handled i s).carry ∧
      t.pc.toNat = advanced s ∧ t.acc = s.acc ∧ HostAgree s t := by
  obtain ⟨t, hexec, hpc, hacc, hcarry, hmem, hhost⟩ := exec_of_advance hd
  have hstored : (Memory.read t.mem a).toNat = b := hmem ▸ read_handled_stored h
  have hother : ∀ k, k ≠ a → Memory.read t.mem k = Memory.read s.mem k := fun k hk => hmem ▸ read_handled_of_ne h hk
  exact ⟨t, hexec, hstored, hother, hcarry, hpc, hacc.trans (handled_acc s hw), hhost⟩

/-- Adding one carries from the largest byte alone. -/
theorem add8_one_carry (m : Byte) : (add8 m 1).2 = true ↔ m.toNat = 255 := by
  have hone : (1 : Byte).toNat = 1 := rfl
  rw [add8_carry, hone]
  omega

/-- Subtracting one borrows from zero alone. -/
theorem sub8_one_borrow (m : Byte) : (sub8 m 1).2 = true ↔ m.toNat = 0 :=
  (sub8_borrow m 1).trans Nat.lt_one_iff

/-! ### The statements of 44_incdec.md -/

/-- Settles O16. The handler of inc stores the byte it reads at the operand, one more modulo 256, and the flag is the
ALU's carry (`add8_one_carry`). -/
theorem incAddsOneInMemory : Obligations.IncAddsOneInMemory := by
  refine ⟨hasEncoding_of_fields (fun _ => rfl) (fun _ => rfl), hasForm_of_opcodeOfMnemonic (by decide), fun x s => ?_⟩
  obtain ⟨t, hexec, hstored, hother, hcarry, hrest⟩ := exec_of_stores (i := .inc x) (s := s) rfl rfl ⟨rfl, rfl⟩
  exact ⟨t, hexec, hstored, hother, hcarry ▸ add8_one_carry (s.readByte x), hrest⟩

/-- Settles O17. The handler of dec stores the byte it reads at the operand, one less modulo 256, and the flag is the
ALU's borrow (`sub8_one_borrow`). -/
theorem decSubtractsOneInMemory : Obligations.DecSubtractsOneInMemory := by
  refine ⟨hasEncoding_of_fields (fun _ => rfl) (fun _ => rfl), hasForm_of_opcodeOfMnemonic (by decide), fun x s => ?_⟩
  obtain ⟨t, hexec, hstored, hother, hcarry, hrest⟩ := exec_of_stores (i := .dec x) (s := s) rfl rfl ⟨rfl, rfl⟩
  exact ⟨t, hexec, hstored, hother, hcarry ▸ sub8_one_borrow (s.readByte x), hrest⟩

end Sys2Proof.Machine

namespace Sys2Proof.Machine

open Sys2Proof.Claims

/-! ### The end of a step in numbers (40_step_cycle.md R43 to R45, 45_jumps.md) -/

/-- The taken jump's target decides the next program counter: resolved where there is one (R45), advanced where there is
none (R44). -/
theorem nextPc_directive_toNat (i : Instr) (s : State) :
    (nextPc s.pc (directive i s)).toNat = (takenTarget i s).elim (advanced s) jumped := by
  rw [← target_directive]
  cases directive i s with
  | advance => exact nextPc_advance_eq_advanced s
  | jump x => exact nextPc_jump s.pc x

/-- Every instruction completes with what its handler left, the program counter of its taken jump, and the host's state
kept. -/
theorem exec_of_takenTarget (i : Instr) (s : State) :
    ∃ t, exec i s = .next t ∧ t.pc.toNat = (takenTarget i s).elim (advanced s) jumped ∧ t.acc = (handled i s).acc ∧
      t.carry = (handled i s).carry ∧ t.mem = (handled i s).mem ∧ HostAgree s t :=
  ⟨_, exec_eq i s, nextPc_directive_toNat i s, rfl, rfl, rfl, handled_host i s⟩

/-! ### A jump to its own index (45_jumps.md R66, 70_reset_and_hazards.md R119) -/

/-- An index of a slot is its own resolved target (R45). -/
theorem nextPc_jump_self {p : SlotIndex} {x : Operand} (h : x.toNat = p.toNat) : nextPc p (.jump x) = p := by
  have hrange : ¬ p.toNat > 2047 := by omega
  apply BitVec.eq_of_toNat_eq
  rw [nextPc_jump, h, if_neg hrange]

/-- A step on a jump to itself ends in the state it began in, so every run does. -/
theorem run_of_self_jump (n : Nat) {s : State} {x : Operand} (hfetch : s.fetch = .jmp x) (hx : x.toNat = s.pc.toNat) :
    core.run n s = .next s := by
  have hstep : (handled s.fetch s).setPc (nextPc s.pc (directive s.fetch s)) = s := by
    rw [hfetch, directive, nextPc_jump_self hx]; rfl
  obtain ⟨t, hrun, rfl⟩ := run_keeps (P := (· = s)) (fun u hu => hu ▸ hstep) n s rfl
  exact hrun

/-! ### The statements of 45_jumps.md -/

/-- Settles O18. The handler of jmp_inz leaves the state as it is, and its jump is taken where the accumulator is not 0. -/
theorem jmpInzTestsAccumulator : Obligations.JmpInzTestsAccumulator := by
  refine ⟨hasEncoding_of_fields (fun _ => rfl) (fun _ => rfl), hasForm_of_opcodeOfMnemonic (by decide), fun x s => ?_⟩
  obtain ⟨t, hexec, hpc, hrest⟩ := exec_of_takenTarget (.jmpInz x) s
  exact ⟨t, hexec, hpc.trans (apply_ite (Option.elim · _ _) _ _ _), hrest⟩

/-- Settles O19. The handler of jmp_iz leaves the state as it is, and its jump is taken where the accumulator is 0. -/
theorem jmpIzTestsAccumulator : Obligations.JmpIzTestsAccumulator := by
  refine ⟨hasEncoding_of_fields (fun _ => rfl) (fun _ => rfl), hasForm_of_opcodeOfMnemonic (by decide), fun x s => ?_⟩
  obtain ⟨t, hexec, hpc, hrest⟩ := exec_of_takenTarget (.jmpIz x) s
  exact ⟨t, hexec, hpc.trans (apply_ite (Option.elim · _ _) _ _ _), hrest⟩

/-- Settles O20. The jump of jmp_ic is taken by the flag before the step; its handler leaves the flag clear, which is no
change where the jump is not taken. -/
theorem jmpIcTestsAndClearsCarry : Obligations.JmpIcTestsAndClearsCarry := by
  refine ⟨hasEncoding_of_fields (fun _ => rfl) (fun _ => rfl), hasForm_of_opcodeOfMnemonic (by decide), fun x s => ?_⟩
  obtain ⟨t, hexec, hpc, hacc, hclear, hmem, hhost⟩ := exec_of_takenTarget (.jmpIc x) s
  have hpc' : t.pc.toNat = if s.carry = true then jumped x.toNat else advanced s :=
    hpc.trans (apply_ite (Option.elim · _ _) _ _ _)
  refine ⟨t, hexec, fun hset => ⟨?_, hclear⟩, fun hunset => ⟨?_, hclear.trans hunset.symm⟩, hacc, hmem, hhost⟩
  · exact hpc'.trans (if_pos hset)
  · exact hpc'.trans (if_neg (Bool.eq_false_iff.mp hunset))

/-- Settles O21. The handler of jmp leaves the state as it is, and its jump is always taken. -/
theorem jmpAlwaysJumps : Obligations.JmpAlwaysJumps :=
  ⟨hasEncoding_of_fields (fun _ => rfl) (fun _ => rfl), hasForm_of_opcodeOfMnemonic (by decide),
    fun x s => exec_of_takenTarget (.jmp x) s⟩

/-- Settles O35. A jump to its own index changes nothing, so every run from it ends where it began
(`run_of_self_jump`). -/
theorem selfJumpStaysPut : Obligations.SelfJumpStaysPut :=
  fun n s _ hfetch hx => ⟨s, run_of_self_jump n hfetch hx, rfl⟩

/-- Settles O36. The run goes on from the state of the first arrival (`run_add`), which the jump to itself repeats. -/
theorem firstArrivalAtSelfJumpIsFinal : Obligations.FirstArrivalAtSelfJumpIsFinal := by
  rintro e s P ⟨n, harrives, t, hrun, hfetch, hP⟩
  have hpc : t.pc = e := by
    obtain ⟨-, ⟨u, hu, hpc⟩, -⟩ := harrives
    obtain rfl : t = u := Host.Outcome.next.inj (hrun.symm.trans hu)
    exact hpc
  have hself : (e.setWidth 12).toNat = t.pc.toNat := by
    rw [hpc]; exact BitVec.toNat_setWidth_of_le (by decide)
  exact ⟨n, t, harrives, fun k => ⟨t, (run_add n k s t hrun).trans (run_of_self_jump k hfetch hself), rfl, hP⟩⟩

end Sys2Proof.Machine

namespace Sys2Proof.Machine

open Sys2Proof.Claims

/-! ### The end of a line (46_assembler.md R71, decision D8) -/

/-- A carriage return is taken from what follows a text that does not end in one. -/
theorem stripCr_append {l : Text} (after : Text) (hl : l.getLast? ≠ some '\r') :
    stripCr (l ++ after) = l ++ stripCr after := by
  obtain rfl | hne := eq_or_ne after []
  · rw [List.append_nil, stripCr_of_getLast hl]; exact (List.append_nil l).symm
  · unfold stripCr
    rw [List.getLast?_append_of_ne_nil l hne, List.dropLast_append_of_ne_nil hne]
    exact (apply_ite (l ++ ·) _ _ _).symm

theorem mem_of_mem_stripCr {l : Text} {c : Char} (h : c ∈ stripCr l) : c ∈ l := by
  unfold stripCr at h
  split at h
  · exact List.mem_of_mem_dropLast h
  · exact h

/-! ### The grammar's blanks and numerals (R80) -/

theorem isTrimmed_of_blank {t : Text} (h : Blank t) {c : Char} (hc : c ∈ t) : isTrimmed c = true := by
  obtain rfl | rfl | rfl | rfl | rfl := h c hc <;> decide

theorem no_lf_of_blank {t : Text} (h : Blank t) : '\n' ∉ t :=
  fun hc => absurd (h _ hc) (by decide)

/-- A line loses none of its blanks but a last carriage return. -/
theorem blank_stripCr {t : Text} (h : Blank t) : Blank (stripCr t) :=
  fun c hc => h c (mem_of_mem_stripCr hc)

theorem isDigit_of_numeral {t : Text} (h : Numeral t) {c : Char} (hc : c ∈ t) : isDigit c = true := by
  obtain ⟨-, hdigits, -⟩ := h
  obtain ⟨hlow, hhigh⟩ := hdigits c hc
  exact Bool.and_eq_true_iff.mpr ⟨decide_eq_true hlow, decide_eq_true hhigh⟩

/-- A numeral holds no white space, so no line terminator. -/
theorem not_trimmed_of_numeral {t : Text} (h : Numeral t) {c : Char} (hc : c ∈ t) : isTrimmed c = false :=
  not_trimmed_of_isDigit (isDigit_of_numeral h hc)

/-- A numeral with blanks round it is an argument of its value (R73, decisions D7, D10 and D11). -/
theorem parseArgument_trim_numeral {before digits after : Text} (hb : Blank before) (hd : Numeral digits)
    (ha : Blank after) :
    parseArgument rejectWideArg (trim (before ++ digits ++ after)) = some (numeralValue digits) := by
  have hdigits : ∀ c ∈ digits, isDigit c = true := fun _ => isDigit_of_numeral hd
  have hwhite : ∀ c ∈ digits, isTrimmed c = false := fun _ => not_trimmed_of_numeral hd
  obtain ⟨hne, -, hlimit⟩ := hd
  rw [trim_append (fun _ => isTrimmed_of_blank hb) (fun _ => isTrimmed_of_blank ha) hne hwhite]
  exact parseArgument_eq_some.mpr ⟨hne, hdigits, hlimit, rfl⟩

/-- An argument with blanks round its numeral is one line, which loses at most the last of the blanks. -/
theorem lines_argument {m before digits after : Text} (hm : '\n' ∉ m) (hb : Blank before) (hd : Numeral digits)
    (ha : Blank after) :
    lines (m ++ ' ' :: (before ++ digits ++ after)) = [m ++ ' ' :: (before ++ digits ++ stripCr after)] := by
  have hlf : '\n' ∉ m ++ ' ' :: (before ++ digits ++ after) := by
    have hdigits : '\n' ∉ digits := fun h => absurd (not_trimmed_of_numeral hd h) (by decide)
    simp [hm, no_lf_of_blank hb, hdigits, no_lf_of_blank ha]
  have hlast : (m ++ ' ' :: before ++ digits).getLast? ≠ some '\r' := by
    rw [List.getLast?_append_of_ne_nil _ hd.1]
    exact fun h => absurd (not_trimmed_of_numeral hd (List.mem_of_getLast? h)) (by decide)
  have hassoc (e : Text) : m ++ ' ' :: (before ++ digits ++ e) = m ++ ' ' :: before ++ digits ++ e := by simp
  rw [lines_of_no_lf hlf, hassoc, stripCr_append after hlast, ← hassoc]

/-! ### The table and the emitted word (R74, R75) -/

theorem opcodeOfMnemonic_of_mem {m : String} {op : Nat} (h : (m, op) ∈ mnemonics) :
    opcodeOfMnemonic m.toList = some op :=
  (by decide : ∀ e ∈ mnemonics, opcodeOfMnemonic e.1.toList = some e.2) (m, op) h

/-- The printer's mnemonic of an opcode is found at that opcode. -/
theorem opcodeOfMnemonic_mnemonicOf (op : Opcode) : opcodeOfMnemonic (mnemonicOf op) = some op.toNat := by
  revert op; decide

theorem encodeArgs_eq_ofNat {op : Nat} (n : Nat) (hop : op < 16) :
    encodeArgs ⟨op, n⟩ = BitVec.ofNat 16 (op * 4096 + n % 4096) := by
  apply BitVec.eq_of_toNat_eq
  have hfits : op * 4096 + n % 4096 < 2 ^ 16 := by omega
  rw [encodeArgs_toNat hop, BitVec.toNat_ofNat, Nat.mod_eq_of_lt hfits]

/-- A word is its opcode field above its operand field (30_encoding.md R32). -/
theorem opcode_append_operand (w : Word) : (w.extractLsb' 12 4 ++ w.extractLsb' 0 12 : Word) = w := by
  apply BitVec.eq_of_toNat_eq
  rw [append_toNat, BitVec.extractLsb'_toNat, BitVec.extractLsb'_toNat, Nat.shiftRight_eq_div_pow]
  omega

/-! ### Texts put together (R71, R78) -/

/-- The lines of joined texts are compiled one text after the other. -/
theorem compile_append_lf (t u : Text) : compile (t ++ '\n' :: u) = (compile t).append (compile u) := by
  simp only [compile, compileWith, lines_append_lf, compileLines_append]

/-- A printed word compiles to itself. -/
theorem compile_printWord (w : Word) : compile (printWord w) = .ok [w] := by
  have hoperand : (w.extractLsb' 0 12).toNat ≤ 4095 := Nat.le_of_lt_succ (BitVec.isLt _)
  rw [printWord, hasForm_of_opcodeOfMnemonic (opcodeOfMnemonic_mnemonicOf _) _ hoperand, BitVec.ofNat_toNat,
    BitVec.setWidth_eq, opcode_append_operand]

/-- A listing is its first word's line, a line feed, and the listing of the rest. -/
theorem listing_cons (w : Word) (ws : ProgramImage) : listing (w :: ws) = printWord w ++ '\n' :: listing ws := rfl

/-! ### The host's loop (47_loader_host_interface.md R86, R94) -/

/-- Every command is answered, and only INSTALL writes the baseline image. -/
theorem command_base (c : Command) (s : State) :
    Ends (command c s) (fun r => (∀ image, c ≠ .install image) → r.1.base = s.base) := by
  have hstep : Ends (silently (step s)) (fun r => r.1.base = s.base) := by
    obtain ⟨-, hbase, -⟩ := handled_host s.fetch s
    exact ends_silently (P := fun t => t.base = s.base) ⟨_, exec_eq s.fetch s, hbase.symm⟩
  cases c with
  | install image => exact ⟨_, rfl, fun h => absurd rfl (h image)⟩
  | compileIfChanged t =>
    refine ⟨_, rfl, fun _ => ?_⟩
    unfold State.compileIfChanged
    split <;> rfl
  | reset | setRunning v | read => exact ⟨_, rfl, fun _ => rfl⟩
  | step =>
    obtain ⟨r, hr, hbase⟩ := hstep
    exact ⟨r, hr, fun _ => hbase⟩
  | tick =>
    cases hrun : s.running with
    | true =>
      obtain ⟨r, hr, hbase⟩ := hstep
      exact ⟨r, (command_tick_running hrun).trans hr, fun _ => hbase⟩
    | false => exact ⟨_, command_tick_stopped hrun, fun _ => rfl⟩

/-- Every sequence of commands is answered, and one without an INSTALL leaves the baseline image as it was. -/
theorem commands_base (cs : List Command) (s : State) :
    Ends (commands cs s) (fun r => (∀ image, .install image ∉ cs) → r.1.base = s.base) := by
  induction cs generalizing s with
  | nil => exact ⟨_, rfl, fun _ => rfl⟩
  | cons c cs ih =>
    obtain ⟨⟨t, r⟩, hc, ht⟩ := command_base c s
    obtain ⟨⟨u, rs⟩, hcs, hu⟩ := ih t
    refine ⟨(u, r :: rs), commands_cons hc hcs, fun h => ?_⟩
    have hhead : ∀ image, c ≠ .install image := fun image he => h image (he ▸ List.mem_cons_self)
    have htail : ∀ image, .install image ∉ cs := fun image hi => h image (List.mem_cons_of_mem c hi)
    exact (hu htail).trans (ht hhead)

/-- A text that fails or is remembered gives the host nothing to install (R83, R84). -/
theorem toInstall_compileIfChanged_eq_nil {text : Text} {s : State}
    (h : (∃ e, compile text = .err e) ∨ s.lastSource = some text) : (s.compileIfChanged text).2.toInstall = [] := by
  unfold State.compileIfChanged
  split
  case isTrue => rfl
  case isFalse hnew =>
    obtain ⟨e, he⟩ | hsame := h
    · rw [he]; rfl
    · exact absurd hsame hnew

theorem install_notMem_toCommands (req : StepRequest) (image : ProgramImage) : .install image ∉ req.toCommands := by
  cases req <;> simp [StepRequest.toCommands]

/-! ### The statements of 46_assembler.md -/

/-- Settles O53, by induction on the image: each printed line compiles to its word, and the lines in order. -/
theorem listingCompilesBack : Obligations.ListingCompilesBack := by
  intro image
  induction image with
  | nil => rfl
  | cons w ws ih => rw [listing_cons, compile_append_lf, compile_printWord, ih]; rfl

/-- Settles O51. An iteration that is given no image issues no INSTALL, the one command that writes the baseline. -/
theorem failedCompileKeepsProgram : Obligations.FailedCompileKeepsProgram := by
  intro text req s
  obtain ⟨r, hr, hbase⟩ := commands_base
    (.compileIfChanged text :: (s.compileIfChanged text).2.toInstall ++ req.toCommands ++ [.read]) s
  refine ⟨r, hr, fun h => hbase fun image => ?_⟩
  simp [toInstall_compileIfChanged_eq_nil h, install_notMem_toCommands]

/-- Settles O56. -/
theorem joinedTextsCompileInOrder : Obligations.JoinedTextsCompileInOrder := by
  intro t u
  rw [compile_append_lf]
  cases compile t <;> cases compile u <;> rfl

/-- Settles O57. The text is one line: its mnemonic is the table's, and its argument parses as the numeral's value. -/
theorem instructionLineEmitsWord : Obligations.InstructionLineEmitsWord := by
  intro m op before digits after hmem hb hd ha
  have hop : opcodeOfMnemonic m.toList = some op := opcodeOfMnemonic_of_mem hmem
  have hlf : '\n' ∉ m.toList := fun h => absurd (not_trimmed_of_mem_mnemonic (mem_of_indexFrom hop) h) (by decide)
  have hlt : op < 16 := (indexFrom_lt (ts := mnemonicTable) hop).trans_le (by decide)
  have hline := compileLine_mnemonic hop (parseArgument_trim_numeral hb hd (blank_stripCr ha))
  rw [compile, compileWith, lines_argument hlf hb hd ha, compileLines_single_word hline,
    encodeArgs_eq_ofNat _ hlt]

end Sys2Proof.Machine

namespace Sys2Proof.Machine

open Sys2Proof.Claims

/-! ### A run and the baseline image (47_loader_host_interface.md R87, 60_exceptions.md R106) -/

/-- An install replaces the baseline image by one that no earlier state plays a part in (decision D4, log entry 6). -/
theorem State.install_eq_setBase (s : State) (image : ProgramImage) :
    s.install image = s.setBase (layoutFrom 0 image []) := rfl

/-- No instruction reads the baseline image, so a step commutes with any replacement of it. -/
theorem handled_setBase (i : Instr) (s : State) (m : Memory) : handled i (s.setBase m) = (handled i s).setBase m := by
  cases i <;> rfl

theorem directive_setBase (i : Instr) (s : State) (m : Memory) : directive i (s.setBase m) = directive i s := by
  cases i <;> rfl

/-- A run commutes with any replacement of the baseline image. -/
theorem run_setBase (n : Nat) (s : State) (m : Memory) :
    ∃ t, core.run n s = .next t ∧ core.run n (s.setBase m) = .next (t.setBase m) := by
  induction n generalizing s with
  | zero => exact ⟨s, rfl, rfl⟩
  | succ n ih =>
    have hfetch : (s.setBase m).fetch = s.fetch := rfl
    rw [run_succ, run_succ, hfetch, handled_setBase, directive_setBase]
    exact ih _

/-! ### Reset (70_reset_and_hazards.md R110, R111) -/

/-- A reset reads the host's state alone: the registers and working memory before it leave no trace. -/
theorem State.doReset_congr {s t : State} (h : HostAgree s t) : s.doReset = t.doReset := by
  obtain ⟨-, hbase, hlast⟩ := h
  exact State.ext_fields rfl rfl rfl rfl hbase hbase hlast

/-! ### The commands (R83, R90 to R95) -/

/-- Every command has an answer in every state. -/
theorem command_answers (c : Command) (s : State) : ∃ r, command c s = .next r := by
  obtain ⟨r, hr, -⟩ := command_base c s
  exact ⟨r, hr⟩

theorem command_step_eq {s t : State} (h : step s = .next t) : command .step s = .next (t, .silent) :=
  congrArg silently h

theorem State.compileIfChanged_of_ne {s : State} {text : Text} (h : s.lastSource ≠ some text) :
    s.compileIfChanged text = (s.setLastSource (some text), .compiled (compile text)) := if_neg h

theorem State.compileIfChanged_of_eq {s : State} {text : Text} (h : s.lastSource = some text) :
    s.compileIfChanged text = (s, .noChange) := if_pos h

/-- The boot order of a new text that compiles: the text remembered, its image installed, the machine reset (R113). -/
theorem boot_eq {text : Text} {image : ProgramImage} {s : State} (hnew : s.lastSource ≠ some text)
    (hok : compile text = .ok image) :
    boot text s = .next (((s.setLastSource (some text)).install image).doReset,
      [.compiled (.ok image), .silent, .silent]) := by
  have hcompile := State.compileIfChanged_of_ne hnew
  rw [hok] at hcompile
  have hfirst : command (.compileIfChanged text) s = .next (s.setLastSource (some text), .compiled (.ok image)) :=
    congrArg Host.Outcome.next hcompile
  rw [boot, hcompile]
  exact commands_cons hfirst rfl

/-- Reset brings an installed word into its slot of working memory, as the instruction it encodes (R110, R86). -/
theorem State.instrAt_doReset_install (s : State) {image : ProgramImage} {p : SlotIndex} {w : Word}
    (hw : image[p.toNat]? = some w) : (s.install image).doReset.instrAt p = decodeWord w := by
  obtain ⟨hhigh, hlow⟩ := State.read_install_word s p.isLt hw
  rw [State.instrAt, slotAddr, State.doReset_mem, hhigh, hlow, decodeWord]

/-! ### The two readings of an immediate (43_arithmetic.md, decision D3) -/

/-- The byte of a sum depends on the second operand modulo 256 only. -/
theorem aluAdd_fst_congr (a : Nat) {b c : Nat} (h : b % 256 = c % 256) : (aluAdd a b).1 = (aluAdd a c).1 := by
  apply BitVec.eq_of_toNat_eq
  rw [aluAdd_toNat, aluAdd_toNat]
  omega

/-- The byte of a difference depends on the second operand modulo 256 only. -/
theorem aluSub_fst_congr (a : Nat) {b c : Nat} (h : b % 256 = c % 256) : (aluSub a b).1 = (aluSub a c).1 := by
  have hb := aluSub_toNat a b
  have hc := aluSub_toNat a c
  apply BitVec.eq_of_toNat_eq
  omega

theorem immValue_low8 (x : Operand) : immValue .low8 x = x.toNat % 256 := imm8_toNat x

theorem immValue_wide12 (x : Operand) : immValue .wide12 x = x.toNat := rfl

/-! ### A line against the grammar (46_assembler.md R71 to R74, R80) -/

theorem discarded_eq_false_iff {l : Text} : discarded l = false ↔ Retained l := by
  cases l with
  | nil => simp [discarded, Retained]
  | cons c cs => simp [discarded, Retained]

/-- What a trim removes are the grammar's blanks, and line feeds, which no line holds. -/
theorem blank_of_isTrimmed {t : Text} (h : ∀ c ∈ t, isTrimmed c = true) (hlf : '\n' ∉ t) : Blank t := by
  intro c hc
  have hne : c ≠ '\n' := fun he => hlf (he ▸ hc)
  have htrim := h c hc
  simp only [isTrimmed, Bool.or_eq_true, beq_iff_eq] at htrim
  tauto

theorem numeral_of_parseArgument {t : Text} {n : Nat} (h : parseArgument rejectWideArg t = some n) : Numeral t := by
  obtain ⟨hne, hdigits, hlimit, -⟩ := parseArgument_eq_some.mp h
  refine ⟨hne, fun c hc => ?_, hlimit⟩
  simpa [isDigit] using hdigits c hc

/-- The split at the first space is the only one with no space before it. -/
theorem split_unique {m a m' a' : Text} (hm : ' ' ∉ m) (hm' : ' ' ∉ m') (h : m ++ ' ' :: a = m' ++ ' ' :: a') :
    m = m' ∧ a = a' := by
  have hsplit := (splitAtSpace_append a hm).symm.trans (h ▸ splitAtSpace_append a' hm')
  simpa using hsplit

/-- The grammar's argument form is decided by whether the text after the first space parses (R73). -/
theorem argumentLine_iff {m a : Text} (hm : ' ' ∉ m) (hlf : '\n' ∉ a) :
    ArgumentLine (m ++ ' ' :: a) ↔ ∃ n, parseArgument rejectWideArg (trim a) = some n := by
  constructor
  · rintro ⟨m', before, digits, after, heq, hm', hb, hd, ha⟩
    obtain ⟨-, rfl⟩ := split_unique hm hm' heq
    exact ⟨_, parseArgument_trim_numeral hb hd ha⟩
  · rintro ⟨n, hn⟩
    obtain ⟨before, after, ha, hbefore, hafter⟩ := trim_cases a
    have hlfb : '\n' ∉ before := fun h => hlf (ha ▸ by simp [h])
    have hlfa : '\n' ∉ after := fun h => hlf (ha ▸ by simp [h])
    exact ⟨m, before, trim a, after, by rw [← ha], hm, blank_of_isTrimmed hbefore hlfb, numeral_of_parseArgument hn,
      blank_of_isTrimmed hafter hlfa⟩

/-- An accepted line does not fail: it is discarded, or its argument parses, whatever its spelling. -/
theorem compileLine_of_accepted {l : Text} (h : AcceptedLine l) (e : CompileError) :
    compileLine rejectWideArg l ≠ .fail e := by
  cases hd : discarded l with
  | true => simp [compileLine, hd]
  | false =>
    obtain ⟨m, before, digits, after, rfl, hm, hb, hnum, ha⟩ := h (discarded_eq_false_iff.mp hd)
    simp only [compileLine_split _ hd hm, parseArgument_trim_numeral hb hnum ha]
    cases opcodeOfMnemonic m <;> simp

/-- A line that is not accepted is a retained one without the grammar's argument form. -/
theorem not_acceptedLine_iff {l : Text} : ¬ AcceptedLine l ↔ Retained l ∧ ¬ ArgumentLine l := Classical.not_imp

/-- A retained line with a space fails only in its argument. -/
theorem compileLine_invalid {l : Text} (hlf : '\n' ∉ l) (h : ¬ AcceptedLine l) (hspace : ' ' ∈ l) :
    compileLine rejectWideArg l = .fail .invalidArgument := by
  obtain ⟨hretained, hargument⟩ := not_acceptedLine_iff.mp h
  obtain ⟨hnone, -⟩ | ⟨m, a, rfl, hm, -⟩ := splitAtSpace_cases l
  · exact absurd hspace hnone
  · have hlfa : '\n' ∉ a := fun hc => hlf (by simp [hc])
    have hparse : parseArgument rejectWideArg (trim a) = none :=
      Option.eq_none_iff_forall_ne_some.mpr fun n hn => hargument ((argumentLine_iff hm hlfa).mpr ⟨n, hn⟩)
    simp only [compileLine_split a (discarded_eq_false_iff.mpr hretained) hm, hparse]

/-- A retained line without a space fails at the split. -/
theorem compileLine_malformed {l : Text} (h : ¬ AcceptedLine l) (hspace : ' ' ∉ l) :
    compileLine rejectWideArg l = .fail .malformedLine := by
  obtain ⟨hretained, -⟩ := not_acceptedLine_iff.mp h
  exact compileLine_no_space (discarded_eq_false_iff.mpr hretained) hspace

/-- The grammar accepts exactly the lines that do not fail. -/
theorem acceptedLine_iff {l : Text} (hlf : '\n' ∉ l) :
    AcceptedLine l ↔ ∀ e, compileLine rejectWideArg l ≠ .fail e := by
  refine ⟨compileLine_of_accepted, fun h => ?_⟩
  by_contra hfaulty
  by_cases hspace : ' ' ∈ l
  · exact h _ (compileLine_invalid hlf hfaulty hspace)
  · exact h _ (compileLine_malformed hfaulty hspace)

/-- A spelling that the table does not hold has no opcode (R74). -/
theorem opcodeOfMnemonic_eq_none {m : Text} (h : ∀ e ∈ mnemonics, m ≠ e.1.toList) : opcodeOfMnemonic m = none := by
  have htable : mnemonicTable = mnemonics.map fun e => e.1.toList := by decide
  refine Option.eq_none_iff_forall_ne_some.mpr fun op hop => ?_
  have hm : m ∈ mnemonicTable := mem_of_indexFrom hop
  rw [htable] at hm
  obtain ⟨e, he, heq⟩ := List.mem_map.mp hm
  exact h e he heq.symm

/-- An argument that parses after another spelling gives no word: the line is a comment, or its spelling is unknown. -/
theorem compileLine_unknown {r : Bool} {m a : Text} {n : Nat} (hm : ' ' ∉ m)
    (hn : parseArgument r (trim a) = some n) (hop : opcodeOfMnemonic m = none) :
    compileLine r (m ++ ' ' :: a) = .skip := by
  cases hd : discarded (m ++ ' ' :: a) with
  | true => rw [compileLine, if_pos hd]
  | false => simp only [compileLine_split a hd hm, hn, hop]

/-! ### A list of lines (R70, R77, R78) -/

/-- A list of lines gives an image exactly when no line of it fails. -/
theorem compileLines_ok_iff (r : Bool) (ls : List Text) :
    (∃ image, compileLines r ls = .ok image) ↔ ∀ l ∈ ls, ∀ e, compileLine r l ≠ .fail e := by
  induction ls with
  | nil => simp [compileLines]
  | cons l ls ih =>
    rw [List.forall_mem_cons, ← ih]
    simp only [compileLines]
    cases compileLine r l with
    | fail e => simp
    | skip => simp
    | word e => cases compileLines r ls <;> simp

/-- The first line that fails decides the error (decision D12). -/
theorem compileLines_first_fail {r : Bool} {before : List Text} {l : Text} {e : CompileError} (after : List Text)
    (hbefore : ∀ b ∈ before, ∀ f, compileLine r b ≠ .fail f) (hl : compileLine r l = .fail e) :
    compileLines r (before ++ l :: after) = .err e := by
  obtain ⟨image, himage⟩ := (compileLines_ok_iff r before).mpr hbefore
  have htail : compileLines r (l :: after) = .err e := by simp only [compileLines, hl]
  rw [compileLines_append, himage, htail, CompileResult.append]

/-! ### The statements of 47_loader_host_interface.md -/

/-- Settles O45. The engine's fields are not the baseline's, and no step reads the baseline (`run_setBase`). -/
theorem installDoesNotDisturbRun : Obligations.InstallDoesNotDisturbRun := by
  intro n image s
  simp only [State.install_eq_setBase]
  exact ⟨⟨rfl, rfl, rfl, rfl⟩, rfl, run_setBase n s (layoutFrom 0 image [])⟩

/-- Settles O48. The bytes of the surface are the reads of the addresses 0 to 4095 in order. -/
theorem readReturnsSurface : Obligations.ReadReturnsSurface := by
  intro s
  have hlength : s.surface.bytes.length = 4096 := by rw [State.surface, List.length_map, List.length_range]; rfl
  refine ⟨s.surface, rfl, rfl, rfl, rfl, rfl, hlength, fun a ha => ?_⟩
  have hrange : (List.range Config.memBytes)[a]? = some a := List.getElem?_range ha
  rw [State.surface, List.getElem?_map, hrange, Option.map_some]

/-- Settles O47. The command's two branches are lemmas (`command_tick_running`, `command_tick_stopped`), and the step
that the first one runs has an answer (`exec_eq`). -/
theorem tickHonoursRunning : Obligations.TickHonoursRunning := by
  refine fun s => ⟨fun hrun => ?_, command_tick_stopped⟩
  have hstep := exec_eq s.fetch s
  exact ⟨_, hstep, (command_tick_running hrun).trans (command_step_eq hstep)⟩

/-- Settles O46. No handler writes running (`handled_host`), and SET_RUNNING writes nothing else. -/
theorem stepAndSetRunningCommands : Obligations.StepAndSetRunningCommands := by
  intro s v
  have hstep := exec_eq s.fetch s
  obtain ⟨hrunning, -, -⟩ := handled_host s.fetch s
  exact ⟨_, s.setRunning v, hstep, command_step_eq hstep, hrunning.symm, rfl, rfl, ⟨rfl, rfl, rfl, rfl⟩, rfl, rfl⟩

/-- Settles O49, by induction on the sequence: each command is answered (`command_answers`), with one reply. -/
theorem everyCommandIsAccepted : Obligations.EveryCommandIsAccepted := by
  intro cs
  induction cs with
  | nil => exact fun s => ⟨_, rfl, rfl⟩
  | cons c cs ih =>
    intro s
    obtain ⟨⟨t, r⟩, hc⟩ := command_answers c s
    obtain ⟨⟨u, rs⟩, hcs, hlength⟩ := ih t
    exact ⟨(u, r :: rs), commands_cons hc hcs, congrArg Nat.succ hlength⟩

/-- Settles O50. A new text is remembered and reported; from then on, as for a remembered one, there is no change. -/
theorem compileSignalsOnce : Obligations.CompileSignalsOnce := by
  intro text s
  have hcommand (u : State) : command (.compileIfChanged text) u = .next (u.compileIfChanged text) := rfl
  by_cases h : s.lastSource = some text
  · have hsame := (hcommand s).trans (congrArg _ (State.compileIfChanged_of_eq h))
    exact ⟨s, .noChange, hsame, fun hne => absurd h hne, fun _ => ⟨rfl, rfl⟩, hsame, ⟨rfl, rfl, rfl, rfl⟩, rfl, rfl⟩
  · have hnew := (hcommand s).trans (congrArg _ (State.compileIfChanged_of_ne h))
    have hremembered := State.setLastSource_lastSource s (some text)
    have hagain := (hcommand _).trans (congrArg _ (State.compileIfChanged_of_eq hremembered))
    exact ⟨_, _, hnew, fun _ => rfl, fun he => absurd he h, hagain, ⟨rfl, rfl, rfl, rfl⟩, rfl, rfl⟩

/-! ### The statements of 70_reset_and_hazards.md -/

/-- Settles O43. Reset depends on the host's state alone (`State.doReset_congr`), which neither a reset's copy nor any
run of a program changes. -/
theorem resetUndoesEveryRun : Obligations.ResetUndoesEveryRun := by
  intro n s
  obtain ⟨t, hrun, hhost⟩ := programsCannotReachHostState n s
  exact ⟨rfl, rfl, t, hrun, (State.doReset_congr hhost).symm⟩

/-- Settles O52. The three commands end in a reset of the installed image (`boot_eq`), whose slots and zero bytes reset
copies from the baseline. -/
theorem bootLoadsProgram : Obligations.BootLoadsProgram := by
  intro text image s hnew hok
  refine ⟨_, boot_eq hnew hok, rfl, rfl, rfl, rfl, fun p w hw => ?_, fun a => State.read_install_past _, rfl⟩
  have hslot := (s.setLastSource (some text)).instrAt_doReset_install hw
  exact ⟨hslot, hslot ▸ encode_decodeWord w⟩

/-- Settles O41. Reset of the created machine leaves both arrays empty, and an instruction fetched from zero bytes is
noop 0 (`fetch_of_zero_memory`). -/
theorem resetStateValues : Obligations.ResetStateValues :=
  ⟨rfl, rfl, rfl, rfl, rfl, Memory.read_nil, Memory.read_nil, rfl, fetch_of_zero_memory Memory.read_nil⟩

/-- Settles O42. Working memory after reset is the baseline itself, so the fetch at pc 0 decodes its bytes 0 and 1. -/
theorem resetCopiesBaseline : Obligations.ResetCopiesBaseline := by
  intro s
  have hfetch : s.doReset.fetch = decode (Memory.read s.base 0) (Memory.read s.base 1) := State.fetch_eq s.doReset
  exact ⟨s.doReset, rfl, fun _ _ => rfl, rfl, rfl, rfl, rfl, rfl, rfl, by rw [step, hfetch]⟩

/-! ### The statements of 43_arithmetic.md and 46_assembler.md -/

/-- Settles O29. The two values of the immediate agree modulo 256, and the wide one above 255 is outside 0 to 255 with
any accumulator. -/
theorem immediateReadingsDifferOnlyInCarry : Obligations.ImmediateReadingsDifferOnlyInCarry := by
  intro a x
  have ha := a.isLt
  rw [immValue_wide12, immValue_low8]
  have hmod : x.toNat % 256 = x.toNat % 256 % 256 := (Nat.mod_mod _ _).symm
  refine ⟨aluAdd_fst_congr _ hmod, aluSub_fst_congr _ hmod, fun hsmall => ?_, fun hwide => ?_⟩
  · rw [Nat.mod_eq_of_lt (Nat.lt_succ_of_le hsmall)]
    exact ⟨rfl, rfl⟩
  · exact ⟨(aluAdd_carry _ _).mpr (by omega), (aluSub_carry _ _).mpr (by omega)⟩

/-- Settles O54. A text compiles when no line of it fails (`compileLines_ok_iff`), and the lines that do not fail are
the grammar's (`acceptedLine_iff`). -/
theorem grammarDecidesAcceptance : Obligations.GrammarDecidesAcceptance := by
  intro text
  rw [compile, compileWith, compileLines_ok_iff]
  exact forall₂_congr fun l hl => (acceptedLine_iff (no_lf_of_mem_lines hl)).symm

/-- Settles O55. The lines before are accepted, so none of them fails, and the first that fails decides. -/
theorem firstFaultyLineDecides : Obligations.FirstFaultyLineDecides := by
  intro text before l after hlines hbefore hfaulty
  have hlf : '\n' ∉ l := no_lf_of_mem_lines (hlines ▸ List.mem_append_right before List.mem_cons_self)
  have hok : ∀ b ∈ before, ∀ e, compileLine rejectWideArg b ≠ .fail e :=
    fun b hb => compileLine_of_accepted (hbefore b hb)
  rw [compile, compileWith, hlines]
  exact ⟨fun h => compileLines_first_fail after hok (compileLine_malformed hfaulty h),
    fun h => compileLines_first_fail after hok (compileLine_invalid hlf hfaulty h)⟩

/-- Settles O58. The text is one line, which is a comment or has a spelling without an opcode, and gives no word. -/
theorem unknownMnemonicIsSkipped : Obligations.UnknownMnemonicIsSkipped := by
  intro m before digits after hunknown hspace hlf hb hd ha
  have hline := compileLine_unknown hspace (parseArgument_trim_numeral hb hd (blank_stripCr ha))
    (opcodeOfMnemonic_eq_none hunknown)
  rw [compile, compileWith, lines_argument hlf hb hd ha]
  simp only [compileLines, hline]

end Sys2Proof.Machine
